-- ==== Sys2Proof/Word.lean ====
section
/-! DEFINITION. The word types of the machine (spec 00_scope.md R4, R7; 10_state.md R10). -/

namespace Sys2Proof

/-- The content of a general register, a timer or a memory cell: 8 bits, unsigned (R11, R24, R30). -/
abbrev Byte := BitVec 8

/-- The content of the program counter, the index register or a stack entry: 16 bits (R14, R17, R19). -/
abbrev Addr := BitVec 16

/-- An instruction word: 16 bits, bit 0 the least significant (R6, R60). -/
abbrev Word := BitVec 16

/-- The number of a general register, a 4-bit selector, so never out of range (R13). -/
abbrev RegId := Fin 16

/-- The number of VF, the register that seven instructions also write as a flag (R12). -/
abbrev regF : RegId := 15

end Sys2Proof
end

