-- ==== Sys2Proof/Syntax.lean ====
section
/-! DEFINITION. The instructions, one constructor per row of spec/opcode_table.json (30_encoding.md R66), in the
table's order. A register selector is a `Fin 16` (R13), so it cannot name a register that does not exist. -/

namespace Sys2Proof

/-- The 34 instructions with their operands (R62, R63). -/
inductive Instr where
  /-- `clear-screen` (R161). -/
  | clearScreen
  /-- `return` (R101). -/
  | ret
  /-- `jump NNN` (R102). -/
  | jump (nnn : BitVec 12)
  /-- `call NNN` (R103). -/
  | call (nnn : BitVec 12)
  /-- `skip-eq VX,NN` (R104). -/
  | skipEqImm (x : RegId) (nn : Byte)
  /-- `skip-ne VX,NN` (R105). -/
  | skipNeImm (x : RegId) (nn : Byte)
  /-- `skip-eq VX,VY` (R106). -/
  | skipEqReg (x y : RegId)
  /-- `skip-ne VX,VY` (R107). -/
  | skipNeReg (x y : RegId)
  /-- `set VX,NN` (R121). -/
  | setImm (x : RegId) (nn : Byte)
  /-- `add VX,NN` (R122). -/
  | addImm (x : RegId) (nn : Byte)
  /-- `copy VX,VY` (R123). -/
  | copy (x y : RegId)
  /-- `or VX,VY` (R124). -/
  | orReg (x y : RegId)
  /-- `and VX,VY` (R125). -/
  | andReg (x y : RegId)
  /-- `xor VX,VY` (R126). -/
  | xorReg (x y : RegId)
  /-- `add VX,VY` (R127). -/
  | addReg (x y : RegId)
  /-- `sub VX,VY` (R128). -/
  | sub (x y : RegId)
  /-- `subn VX,VY` (R129). -/
  | subn (x y : RegId)
  /-- `shr VX,VY` (R130). -/
  | shr (x y : RegId)
  /-- `shl VX,VY` (R131). -/
  | shl (x y : RegId)
  /-- `load-index NNN` (R141). -/
  | loadIndex (nnn : BitVec 12)
  /-- `jump-offset NNN` (R109). The table gives the row two overlapping fields, nnn and x, and R61 says x is the top
  nibble of nnn; `WellFormed` checks that. -/
  | jumpOffset (x : RegId) (nnn : BitVec 12)
  /-- `random VX,NN` (R132). -/
  | random (x : RegId) (nn : Byte)
  /-- `draw VX,VY,N`, N the number of rows, 0 to 15 (R162). -/
  | draw (x y : RegId) (n : Fin 16)
  /-- `key-pressed VX` (R182). -/
  | keyPressed (x : RegId)
  /-- `key-not-pressed VX` (R183). -/
  | keyNotPressed (x : RegId)
  /-- `get-delay VX` (R186). -/
  | getDelay (x : RegId)
  /-- `set-delay VX` (R187). -/
  | setDelay (x : RegId)
  /-- `set-sound VX` (R188). -/
  | setSound (x : RegId)
  /-- `add-index VX` (R142). -/
  | addIndex (x : RegId)
  /-- `wait-key VX` (R184). -/
  | waitKey (x : RegId)
  /-- `font-address VX` (R143). -/
  | fontAddress (x : RegId)
  /-- `store-bcd VX` (R145). -/
  | storeBcd (x : RegId)
  /-- `store-regs VX`, x the number of the last register (R146). -/
  | storeRegs (x : RegId)
  /-- `load-regs VX`, x the number of the last register (R147). -/
  | loadRegs (x : RegId)
deriving DecidableEq, Repr

end Sys2Proof
end

