-- ==== Sys2Proof/WellFormed.lean ====
section
/-! DEFINITION. Which instruction terms have an encoding. Every operand's range is in its type (selectors `Fin 16`,
literals `BitVec`), so one check is left: the two overlapping operands of `jump-offset` agree (30_encoding.md R61). -/

namespace Sys2Proof

/-- The only relation between operands that the encoding imposes: `jump-offset`'s selector is the top nibble of its
own address (R61, R109). -/
abbrev Instr.WellFormed : Instr → Prop
  | .jumpOffset x nnn => x.val = nnn.toNat / 256
  | .clearScreen | .ret | .jump _ | .call _ | .skipEqImm _ _ | .skipNeImm _ _ | .skipEqReg _ _ | .skipNeReg _ _
  | .setImm _ _ | .addImm _ _ | .copy _ _ | .orReg _ _ | .andReg _ _ | .xorReg _ _ | .addReg _ _ | .sub _ _
  | .subn _ _ | .shr _ _ | .shl _ _ | .loadIndex _ | .random _ _ | .draw _ _ _ | .keyPressed _ | .keyNotPressed _
  | .getDelay _ | .setDelay _ | .setSound _ | .addIndex _ | .waitKey _ | .fontAddress _ | .storeBcd _
  | .storeRegs _ | .loadRegs _ => True

end Sys2Proof
end

