-- ==== Sys2Proof/Decode.lean ====
section
/-! DEFINITION. The decoder, total on any word and any bytes (30_encoding.md R64, R67; 40_step_fetch_decode.md R83),
then the encoder and the opcode map as a table (R66). -/

namespace Sys2Proof

/-- Why bytes are no instruction. -/
inductive DecodeReject where
  /-- The word matches no row of the opcode map (R68, R85). -/
  | unknownWord (w : Word)
  /-- Fewer than the two bytes an instruction takes (R60). -/
  | tooFewBytes
deriving DecidableEq, Repr

/-! ## Fields of an instruction word (R61) -/

/-- `op = w[15:12]`. -/
def Word.op (w : Word) : Nat := (w.extractLsb' 12 4).toNat

/-- `x = w[11:8]`. -/
def Word.x (w : Word) : RegId := (w.extractLsb' 8 4).toFin

/-- `y = w[7:4]`. -/
def Word.y (w : Word) : RegId := (w.extractLsb' 4 4).toFin

/-- `n = w[3:0]`. -/
def Word.n (w : Word) : Fin 16 := (w.extractLsb' 0 4).toFin

/-- `nn = w[7:0]`. -/
def Word.nn (w : Word) : Byte := w.extractLsb' 0 8

/-- `nnn = w[11:0]`. -/
def Word.nnn (w : Word) : BitVec 12 := w.extractLsb' 0 12

/-- The word of two bytes, the first the high byte: (b0 << 8) | b1 (R42, R81). -/
def Word.ofBytes (hi lo : Byte) : Word := hi ++ lo

/-- The first (high) byte of a word, the one at the lower address (R60). -/
def Word.hiByte (w : Word) : Byte := w.extractLsb' 8 8

/-- The second (low) byte of a word. -/
def Word.loByte (w : Word) : Byte := w.extractLsb' 0 8

/-! ## The decoder -/

/-- The group op = 0x8, selected by n (R67). -/
def decodeAlu (w : Word) : Option Instr :=
  match w.n.val with
  | 0x0 => some (.copy w.x w.y)
  | 0x1 => some (.orReg w.x w.y)
  | 0x2 => some (.andReg w.x w.y)
  | 0x3 => some (.xorReg w.x w.y)
  | 0x4 => some (.addReg w.x w.y)
  | 0x5 => some (.sub w.x w.y)
  | 0x6 => some (.shr w.x w.y)
  | 0x7 => some (.subn w.x w.y)
  | 0xE => some (.shl w.x w.y)
  | _ => none

/-- The group op = 0xF, selected by nn (R67). -/
def decodeMisc (w : Word) : Option Instr :=
  match w.nn.toNat with
  | 0x07 => some (.getDelay w.x)
  | 0x0A => some (.waitKey w.x)
  | 0x15 => some (.setDelay w.x)
  | 0x18 => some (.setSound w.x)
  | 0x1E => some (.addIndex w.x)
  | 0x29 => some (.fontAddress w.x)
  | 0x33 => some (.storeBcd w.x)
  | 0x55 => some (.storeRegs w.x)
  | 0x65 => some (.loadRegs w.x)
  | _ => none

/-- The map by major opcode (R67); `none` is the unknown instruction. Fixed nibbles must match (R68, log 9). -/
def decodeWord (w : Word) : Option Instr :=
  match w.op with
  | 0x0 => if w.toNat = 0x00E0 then some .clearScreen else if w.toNat = 0x00EE then some .ret else none
  | 0x1 => some (.jump w.nnn)
  | 0x2 => some (.call w.nnn)
  | 0x3 => some (.skipEqImm w.x w.nn)
  | 0x4 => some (.skipNeImm w.x w.nn)
  | 0x5 => if w.n.val = 0 then some (.skipEqReg w.x w.y) else none
  | 0x6 => some (.setImm w.x w.nn)
  | 0x7 => some (.addImm w.x w.nn)
  | 0x8 => decodeAlu w
  | 0x9 => if w.n.val = 0 then some (.skipNeReg w.x w.y) else none
  | 0xA => some (.loadIndex w.nnn)
  | 0xB => some (.jumpOffset w.x w.nnn)
  | 0xC => some (.random w.x w.nn)
  | 0xD => some (.draw w.x w.y w.n)
  | 0xE => if w.nn.toNat = 0x9E then some (.keyPressed w.x)
           else if w.nn.toNat = 0xA1 then some (.keyNotPressed w.x) else none
  | _ => decodeMisc w

/-- Decoding of a word, rejecting by name: a total function of the word alone (R64, R83). -/
def decode (w : Word) : Except DecodeReject Instr :=
  match decodeWord w with
  | some i => .ok i
  | none => .error (.unknownWord w)

/-- Decoding of the next instruction of a byte sequence: the instruction and the bytes after it. -/
def decodeBytes : List Byte → Except DecodeReject (Instr × List Byte)
  | hi :: lo :: rest =>
    match decode (Word.ofBytes hi lo) with
    | .ok i => .ok (i, rest)
    | .error r => .error r
  | _ => .error .tooFewBytes

/-- A table word, bits from `nbits` on zero, as the 16-bit instruction word. -/
def tableWord (nbits w : Nat) : Word := BitVec.ofNat 16 (w % 2 ^ nbits)

/-- The instruction the decoder reads from the bytes of a table word, laid out high byte first (R60). -/
def decodeTableWord (nbits w : Nat) : Option Instr :=
  match decodeBytes [(tableWord nbits w).hiByte, (tableWord nbits w).loByte] with
  | .ok (i, _) => some i
  | .error _ => none

/-! ## The encoder, from the patterns of R62 and R66 -/

/-- Format A: op and a 12-bit address. -/
def encA (op : Nat) (nnn : BitVec 12) : Word := BitVec.ofNat 16 (op * 4096 + nnn.toNat)

/-- Format XI: op, x and an 8-bit literal or a fixed second byte. -/
def encXI (op : Nat) (x : RegId) (nn : Nat) : Word := BitVec.ofNat 16 (op * 4096 + x.val * 256 + nn)

/-- Formats XY and XYN: op, x, y and a fourth nibble, fixed or an operand. -/
def encXYN (op : Nat) (x y : RegId) (n : Nat) : Word :=
  BitVec.ofNat 16 (op * 4096 + x.val * 256 + y.val * 16 + n)

/-- The word of an instruction (R66). -/
def encode : Instr → Word
  | .clearScreen => 0x00E0
  | .ret => 0x00EE
  | .jump nnn => encA 0x1 nnn
  | .call nnn => encA 0x2 nnn
  | .skipEqImm x nn => encXI 0x3 x nn.toNat
  | .skipNeImm x nn => encXI 0x4 x nn.toNat
  | .skipEqReg x y => encXYN 0x5 x y 0x0
  | .skipNeReg x y => encXYN 0x9 x y 0x0
  | .setImm x nn => encXI 0x6 x nn.toNat
  | .addImm x nn => encXI 0x7 x nn.toNat
  | .copy x y => encXYN 0x8 x y 0x0
  | .orReg x y => encXYN 0x8 x y 0x1
  | .andReg x y => encXYN 0x8 x y 0x2
  | .xorReg x y => encXYN 0x8 x y 0x3
  | .addReg x y => encXYN 0x8 x y 0x4
  | .sub x y => encXYN 0x8 x y 0x5
  | .subn x y => encXYN 0x8 x y 0x7
  | .shr x y => encXYN 0x8 x y 0x6
  | .shl x y => encXYN 0x8 x y 0xE
  | .loadIndex nnn => encA 0xA nnn
  | .jumpOffset _ nnn => encA 0xB nnn
  | .random x nn => encXI 0xC x nn.toNat
  | .draw x y n => encXYN 0xD x y n.val
  | .keyPressed x => encXI 0xE x 0x9E
  | .keyNotPressed x => encXI 0xE x 0xA1
  | .getDelay x => encXI 0xF x 0x07
  | .setDelay x => encXI 0xF x 0x15
  | .setSound x => encXI 0xF x 0x18
  | .addIndex x => encXI 0xF x 0x1E
  | .waitKey x => encXI 0xF x 0x0A
  | .fontAddress x => encXI 0xF x 0x29
  | .storeBcd x => encXI 0xF x 0x33
  | .storeRegs x => encXI 0xF x 0x55
  | .loadRegs x => encXI 0xF x 0x65

/-! ## The opcode map as a table (R66) -/

/-- One row of the opcode map: a word selects it when `w & mask = bits`. -/
structure OpRow where
  name : String
  bits : Word
  mask : Word
deriving DecidableEq, Repr

/-- `w & mask == match` (R64, R66). -/
def OpRow.selects (r : OpRow) (w : Word) : Bool := w &&& r.mask == r.bits

/-- Rows 1 to 10 of R66. -/
def opRowsImmediate : List OpRow :=
  [⟨"clear-screen", 0x00E0, 0xFFFF⟩, ⟨"return", 0x00EE, 0xFFFF⟩, ⟨"jump_NNN", 0x1000, 0xF000⟩,
   ⟨"call_NNN", 0x2000, 0xF000⟩, ⟨"skip-eq_VX_NN", 0x3000, 0xF000⟩, ⟨"skip-ne_VX_NN", 0x4000, 0xF000⟩,
   ⟨"skip-eq_VX_VY", 0x5000, 0xF00F⟩, ⟨"skip-ne_VX_VY", 0x9000, 0xF00F⟩, ⟨"set_VX_NN", 0x6000, 0xF000⟩,
   ⟨"add_VX_NN", 0x7000, 0xF000⟩]

/-- Rows 11 to 19 of R66. -/
def opRowsRegister : List OpRow :=
  [⟨"copy_VX_VY", 0x8000, 0xF00F⟩, ⟨"or_VX_VY", 0x8001, 0xF00F⟩, ⟨"and_VX_VY", 0x8002, 0xF00F⟩,
   ⟨"xor_VX_VY", 0x8003, 0xF00F⟩, ⟨"add_VX_VY", 0x8004, 0xF00F⟩, ⟨"sub_VX_VY", 0x8005, 0xF00F⟩,
   ⟨"subn_VX_VY", 0x8007, 0xF00F⟩, ⟨"shr_VX_VY", 0x8006, 0xF00F⟩, ⟨"shl_VX_VY", 0x800E, 0xF00F⟩]

/-- Rows 20 to 34 of R66. -/
def opRowsRest : List OpRow :=
  [⟨"load-index_NNN", 0xA000, 0xF000⟩, ⟨"jump-offset_NNN", 0xB000, 0xF000⟩, ⟨"random_VX_NN", 0xC000, 0xF000⟩,
   ⟨"draw_VX_VY_N", 0xD000, 0xF000⟩, ⟨"key-pressed_VX", 0xE09E, 0xF0FF⟩, ⟨"key-not-pressed_VX", 0xE0A1, 0xF0FF⟩,
   ⟨"get-delay_VX", 0xF007, 0xF0FF⟩, ⟨"set-delay_VX", 0xF015, 0xF0FF⟩, ⟨"set-sound_VX", 0xF018, 0xF0FF⟩,
   ⟨"add-index_VX", 0xF01E, 0xF0FF⟩, ⟨"wait-key_VX", 0xF00A, 0xF0FF⟩, ⟨"font-address_VX", 0xF029, 0xF0FF⟩,
   ⟨"store-bcd_VX", 0xF033, 0xF0FF⟩, ⟨"store-regs_VX", 0xF055, 0xF0FF⟩, ⟨"load-regs_VX", 0xF065, 0xF0FF⟩]

/-- The 34 rows of R66. -/
def opRows : List OpRow := opRowsImmediate ++ opRowsRegister ++ opRowsRest

/-- The name of the row an instruction belongs to. -/
def Instr.rowName : Instr → String
  | .clearScreen => "clear-screen"
  | .ret => "return"
  | .jump _ => "jump_NNN"
  | .call _ => "call_NNN"
  | .skipEqImm _ _ => "skip-eq_VX_NN"
  | .skipNeImm _ _ => "skip-ne_VX_NN"
  | .skipEqReg _ _ => "skip-eq_VX_VY"
  | .skipNeReg _ _ => "skip-ne_VX_VY"
  | .setImm _ _ => "set_VX_NN"
  | .addImm _ _ => "add_VX_NN"
  | .copy _ _ => "copy_VX_VY"
  | .orReg _ _ => "or_VX_VY"
  | .andReg _ _ => "and_VX_VY"
  | .xorReg _ _ => "xor_VX_VY"
  | .addReg _ _ => "add_VX_VY"
  | .sub _ _ => "sub_VX_VY"
  | .subn _ _ => "subn_VX_VY"
  | .shr _ _ => "shr_VX_VY"
  | .shl _ _ => "shl_VX_VY"
  | .loadIndex _ => "load-index_NNN"
  | .jumpOffset _ _ => "jump-offset_NNN"
  | .random _ _ => "random_VX_NN"
  | .draw _ _ _ => "draw_VX_VY_N"
  | .keyPressed _ => "key-pressed_VX"
  | .keyNotPressed _ => "key-not-pressed_VX"
  | .getDelay _ => "get-delay_VX"
  | .setDelay _ => "set-delay_VX"
  | .setSound _ => "set-sound_VX"
  | .addIndex _ => "add-index_VX"
  | .waitKey _ => "wait-key_VX"
  | .fontAddress _ => "font-address_VX"
  | .storeBcd _ => "store-bcd_VX"
  | .storeRegs _ => "store-regs_VX"
  | .loadRegs _ => "load-regs_VX"

end Sys2Proof
end

