-- ==== Sys2Proof/Machine/Flags.lean ====
section
/-! DEFINITION. Every outcome that an instruction reports in VF, computed from the values read at the start of the
instruction (42_alu.md R120; 43_index_memory.md R142). The collision flag of draw is computed cell by cell in
Display.lean (R162). -/

namespace Sys2Proof.Machine

/-- An outcome as the whole byte 1 or 0 (R120). -/
def flagByte (c : Bool) : Byte := if c then 1 else 0

/-- The 8-bit addition overflows: a + b > 255 (R127). -/
def carry8 (a b : Byte) : Bool := decide (a.toNat + b.toNat > 255)

/-- No borrow occurs in a - b: a ≥ b (R128, R129). -/
def noBorrow (a b : Byte) : Bool := decide (a.toNat ≥ b.toNat)

/-- The bit that a shift right drops: bit 0 of the pre-shift value (R130). -/
def shrOut (t : Byte) : Bool := t.getLsbD 0

/-- The bit that a shift left drops: bit 7 of the pre-shift value (R131). -/
def shlOut (t : Byte) : Bool := t.getLsbD 7

/-- The 16-bit addition overflows: a + b > 65535 (R142). -/
def carry16 (a : Addr) (b : Byte) : Bool := decide (a.toNat + b.toNat > 65535)

end Sys2Proof.Machine
end

