-- ==== Sys2Proof/Config.lean ====
section
/-! DEFINITION. The sizes the hardware fixes (spec 00_scope.md R4) and the one free value the spec leaves open, the
random byte (R5, RAND). The quirk switches are state (10_state.md R10), and the glyph bytes stand in Machine/Memory.lean. -/

namespace Sys2Proof.Config

/-- MEM_SIZE: addresses 0x000 to 0xFFF (R4). -/
abbrev memSize : Nat := 4096

/-- GLYPH_BASE (R4). -/
abbrev glyphBase : Nat := 0x050

/-- GLYPH_BYTES: 16 glyphs of 5 bytes (R4). -/
abbrev glyphBytes : Nat := 80

/-- LOAD_ADDR, also the program counter after reset (R4). -/
abbrev loadAddr : Nat := 0x200

/-- MAX_PROGRAM = MEM_SIZE - LOAD_ADDR (R4). -/
abbrev maxProgram : Nat := 3584

/-- CYCLES_PER_FRAME under the nominal schedule; no instruction depends on it (R5, R242). -/
abbrev nominalCyclesPerFrame : Nat := 12

/-- RAND: the byte that the n-th executed `random` draws. The spec gives no law for it (R132, decision D16), so it has
no body and nothing can be proved of its value. DESIGN CHOICE, log 4. -/
opaque randByte : Nat → Byte

end Sys2Proof.Config
end

