-- ==== Sys2Proof/Machine/Memory.lean ====
section
/-! DEFINITION. The Memory Image (10_state.md R30, R31; 20_memory.md R40, R41): a canonical list of the cells that
differ from what memory holds at reset, and its raw byte operations. Bounds are checked in Ops.lean (R44, R45). -/

namespace Sys2Proof.Machine

/-- The Memory Image: the cells that differ from `resetByte`, addresses strictly rising. -/
abbrev Memory := List Host.Cell

/-- Glyphs of the digits 0 to 7, five bytes each, top row first (R31, decision D15; log 8). -/
def glyphsLow : List Byte :=
  [0xF0, 0x90, 0x90, 0x90, 0xF0,  0x20, 0x60, 0x20, 0x20, 0x70,
   0xF0, 0x10, 0xF0, 0x80, 0xF0,  0xF0, 0x10, 0xF0, 0x10, 0xF0,
   0x90, 0x90, 0xF0, 0x10, 0x10,  0xF0, 0x80, 0xF0, 0x10, 0xF0,
   0xF0, 0x80, 0xF0, 0x90, 0xF0,  0xF0, 0x10, 0x20, 0x40, 0x40]

/-- Glyphs of the digits 8 to F (R31). -/
def glyphsHigh : List Byte :=
  [0xF0, 0x90, 0xF0, 0x90, 0xF0,  0xF0, 0x90, 0xF0, 0x10, 0xF0,
   0xF0, 0x90, 0xF0, 0x90, 0x90,  0xE0, 0x90, 0xE0, 0x90, 0xE0,
   0xF0, 0x80, 0x80, 0x80, 0xF0,  0xE0, 0x90, 0x90, 0x90, 0xE0,
   0xF0, 0x80, 0xF0, 0x80, 0xF0,  0xF0, 0x80, 0xF0, 0x80, 0x80]

/-- The 80 bytes of the table of R31, in address order. -/
def glyphs : List Byte := glyphsLow ++ glyphsHigh

/-- The type of the construction parameter GLYPHS: 80 bytes (00_scope.md R5). -/
abbrev GlyphTable := Vector Byte Config.glyphBytes

/-- The default of GLYPHS: the table of R31 (R5, decision D15; log 8). -/
def defaultGlyphs : GlyphTable := ⟨glyphs.toArray, rfl⟩

/-- What an address that `Memory` does not list reads as: what it holds after construction with the default glyph table
and before a program is loaded, that is the table at 0x050 to 0x09F and zero elsewhere (R34, decision D5; logs 7 and 8).
Another table is listed where it differs (`Memory.load`). -/
def resetByte (a : Nat) : Byte :=
  if Config.glyphBase ≤ a ∧ a < Config.glyphBase + Config.glyphBytes then glyphs.getD (a - Config.glyphBase) 0 else 0

/-- The raw byte `MEM[a]` (R6). -/
def Memory.read : Memory → Nat → Byte
  | [], a => resetByte a
  | (k, b) :: m, a => if k = a then b else Memory.read m a

/-- `MEM[a] <- b`, keeping the canonical form: writing what an unlisted address reads as removes the entry. -/
def Memory.write : Memory → Nat → Byte → Memory
  | [], a, b => if b = resetByte a then [] else [(a, b)]
  | (k, c) :: m, a, b =>
    if k < a then (k, c) :: Memory.write m a b
    else if k = a then (if b = resetByte a then m else (a, b) :: m)
    else if b = resetByte a then (k, c) :: m else (a, b) :: (k, c) :: m

/-- `MEM[a + k] <- bs[k]` for every k, in ascending order (R233). -/
def Memory.writeAll (m : Memory) (a : Nat) : List Byte → Memory
  | [] => m
  | b :: bs => Memory.writeAll (Memory.write m a b) (a + 1) bs

/-- The Memory Image that construction leaves: the glyph table at GLYPH_BASE, the program at LOAD_ADDR, zero elsewhere
(70_reset_and_hazards.md R230, R233; decision D5, log 7). -/
def Memory.load (table : GlyphTable) (program : List Byte) : Memory :=
  Memory.writeAll (Memory.writeAll [] Config.glyphBase table.toList) Config.loadAddr program

/-- The canonical form: addresses strictly rising and inside memory, no entry equal to what an unlisted address reads
as. -/
abbrev Memory.wf (m : Memory) : Prop :=
  m.Pairwise (fun c d => c.1 < d.1) ∧ ∀ c ∈ m, c.1 < Config.memSize ∧ c.2 ≠ resetByte c.1

end Sys2Proof.Machine
end

