-- ==== Sys2Proof/Machine/State.lean ====
section
/-! DEFINITION. The whole state of the machine (10_state.md R10), why it stops, and the state after reset (R34). -/

namespace Sys2Proof.Machine

/-- A fatal cause, with the value it records (60_exceptions.md R200). -/
inductive FatalCause where
  /-- `OutOfBounds(fetch, p)`: PC + 1 > 4095 at the fetch, p = PC (R82). -/
  | fetchBounds (p : Nat)
  /-- `OutOfBounds(data, a)`: the effective address a = I + k > 4095 (R44, R45). -/
  | dataBounds (a : Nat)
  /-- `OutOfBounds(key, k)`: a key number k > 15 (R181). -/
  | keyBounds (k : Nat)
  /-- `StackOverflow`: a push with SP = 16 (R21). -/
  | stackOverflow
  /-- `StackUnderflow`: a pop with SP = 0 (R22). -/
  | stackUnderflow
deriving DecidableEq, Repr

/-- Why a step has no next state. -/
inductive Fault where
  /-- The machine is already halted by `cause`: the step changes nothing and returns Fatal(cause) (R87). Raised by
  `step` only, never by an instruction. SAFE: nothing is claimed of a machine after its halt. -/
  | halted (cause : FatalCause)
deriving DecidableEq, Repr

/-- Why an instruction has no meaning. No instruction of this model is refused. -/
inductive Refusal where
  /-- The instruction has no meaning yet. Raised by no arm of `exec`. SAFE. -/
  | notModelled (mnemonic : String)
deriving DecidableEq, Repr


/-- The Quirk Configuration: two switches fixed at construction (R28, R5). -/
structure QuirkConfig where
  /-- `CFG.shift`, read by shr and shl. -/
  shift : Bool
  /-- `CFG.jump`, read by jump-offset. -/
  jump : Bool
deriving DecidableEq, Repr

/-- The Display Buffer: 32 rows of 64 cells, row 0 at the top, column 0 at the left, true is lit (R32). -/
abbrev Display := Vector (Vector Bool 64) 32

/-- The architectural state, exactly the items of R10, and the model's own counter of random draws. -/
structure State where
  /-- `V[0..15]` (R11). -/
  v : Vector Byte 16
  /-- `I` (R17). -/
  i : Addr
  /-- `PC` (R14). -/
  pc : Addr
  /-- `SP`, 0 to 16 (R20). -/
  sp : Fin 17
  /-- `STACK[0..15]` (R19). -/
  stack : Vector Addr 16
  /-- `DT` (R24). -/
  dt : Byte
  /-- `ST` (R25). -/
  st : Byte
  /-- `FB` (R32). -/
  fb : Display
  /-- `KEY[0..15]` (R27). -/
  key : Vector Bool 16
  /-- `MEM` (R30). -/
  mem : Memory
  /-- `CFG` (R28). -/
  cfg : QuirkConfig
  /-- `HALT`: the cause of the fatal fault that halted the machine, if one has (R29). -/
  halt : Option FatalCause
  /-- THE MODEL'S OWN: how many random bytes have been drawn; the next one is `Config.randByte draws` (log 4). -/
  draws : Nat
deriving DecidableEq, Repr

/-- Every display cell false (R34, R161). -/
def Display.clear : Display := Vector.replicate 32 (Vector.replicate 64 false)

/-- The state right after construction with the empty program and the default glyph table, which memory with nothing
listed holds (R34, R230, R233; log 8). The two switches are arguments of the
constructor and the spec names no default: false here is a DESIGN CHOICE, log 5. `draws` 0: DESIGN CHOICE, log 4. -/
def State.reset : State where
  v := Vector.replicate 16 0
  i := 0
  pc := 0x200
  sp := 0
  stack := Vector.replicate 16 0
  dt := 0
  st := 0
  fb := Display.clear
  key := Vector.replicate 16 false
  mem := []
  cfg := ⟨false, false⟩
  halt := none
  draws := 0

end Sys2Proof.Machine
end

