-- ==== Sys2Proof/Machine/Operands.lean ====
section
/-! DEFINITION. Every operand form: the registers a selector names, the literals at the width they are used at
(30_encoding.md R61, R63), the effective address I + k (20_memory.md R43), the origin of a draw (44_display.md R162). -/

namespace Sys2Proof.Machine

/-- `V[x]` (R6, R13). -/
def State.reg (s : State) (x : RegId) : Byte := s.v.get x

/-- `V[x] <- b` (R6, R13): no register is hard-wired (R11). -/
def State.setReg (s : State) (x : RegId) (b : Byte) : State := { s with v := s.v.set x.val b x.isLt }

/-- `zext_16(nnn)` (R63). -/
def addrLit (nnn : BitVec 12) : Addr := nnn.setWidth 16

/-- The effective address `I + k` of a data access, a mathematical integer that is not reduced (R43, log 13). -/
def State.dataAddr (s : State) (k : Nat) : Nat := s.i.toNat + k

/-- The registers that a block transfer moves: numbers 0 to x, ascending (R146, R147). -/
def regsUpTo (x : RegId) : List RegId := (List.finRange 16).take (x.val + 1)

/-- The origin column of a draw: V[x] mod 64 (R162). -/
def State.originCol (s : State) (x : RegId) : Nat := (s.reg x).toNat % 64

/-- The origin row of a draw: V[y] mod 32 (R162). -/
def State.originRow (s : State) (y : RegId) : Nat := (s.reg y).toNat % 32

/-- The register whose value jump-offset adds: VX under JUMP_QUIRK, V0 otherwise (R109). -/
def State.jumpReg (s : State) (x : RegId) : RegId := if s.cfg.jump then x else 0

/-- The digits of a byte, ones first: v mod 10, (v div 10) mod 10, v div 100 (R144). -/
def bcdDigits (v : Byte) : List Byte :=
  [BitVec.ofNat 8 (v.toNat % 10), BitVec.ofNat 8 (v.toNat / 10 % 10), BitVec.ofNat 8 (v.toNat / 100)]

/-- The address of the glyph of digit v: 0x050 + 5 * v, without wrap or mask (R143, log 15). -/
def glyphAddr (v : Byte) : Addr := BitVec.ofNat 16 (Config.glyphBase + 5 * v.toNat)

end Sys2Proof.Machine
end

