-- ==== Sys2Proof/Machine/Ops.lean ====
section
/-! DEFINITION. The operations that instructions share: raising a fatal fault (60_exceptions.md R204), checked memory
accesses (20_memory.md R44, R45), the call stack (10_state.md R21, R22), the skip (41_control_flow.md R108), VF, the
random byte (42_alu.md R132), the key lines (45_keys_timers.md R181, R184), and the fetch (40_step_fetch_decode.md R81). -/

namespace Sys2Proof.Machine

/-! ## Fatal faults -/

/-- `raise F(info)`: HALT <- F(info) and the rest of the step does not happen. Nothing is saved and nothing else
changes, so the writes already made stand and PC keeps the value it has (R204; logs 1 and 3). There is no return from
it (R207). -/
def State.raise (s : State) (c : FatalCause) : Host.Outcome State Fault Refusal := .next { s with halt := some c }

/-- Goes on with the result of a checked operation, or raises its fault in the state it was tried in. -/
def State.attempt {α : Type} (s : State) (r : Except FatalCause α) (k : α → Host.Outcome State Fault Refusal) :
    Host.Outcome State Fault Refusal :=
  match r with
  | .error c => s.raise c
  | .ok a => k a

/-! ## Memory -/

/-- `MemRead(a, 1)` (R44). -/
def State.memRead (s : State) (a : Nat) : Except FatalCause Byte :=
  if a > 4095 then .error (.dataBounds a) else .ok (Memory.read s.mem a)

/-- `MemWrite(a, 1, b)` (R45). -/
def State.memWrite (s : State) (a : Nat) (b : Byte) : Except FatalCause State :=
  if a > 4095 then .error (.dataBounds a) else .ok { s with mem := Memory.write s.mem a b }

/-- Writes bytes at I + k, I + k + 1, ..., each checked when it is made; a fault keeps the earlier writes (R140). -/
def storeFrom (k : Nat) : List Byte → State → Host.Outcome State Fault Refusal
  | [], s => .next s
  | b :: bs, s => s.attempt (s.memWrite (s.dataAddr k) b) fun s' => storeFrom (k + 1) bs s'

/-- Loads register r from I + r for each r of the list in order, each access checked when it is made (R140, R147). -/
def loadInto : List RegId → State → Host.Outcome State Fault Refusal
  | [], s => .next s
  | r :: rs, s => s.attempt (s.memRead (s.dataAddr r.val)) fun b => loadInto rs (s.setReg r b)

/-! ## The call stack -/

/-- `push(a)` (R21). -/
def State.push (s : State) (a : Addr) : Except FatalCause State :=
  if h : s.sp.val < 16 then
    .ok { s with stack := s.stack.set s.sp.val a h, sp := ⟨s.sp.val + 1, Nat.succ_lt_succ h⟩ }
  else .error .stackOverflow

/-- `pop()`: the address and the state after it; the entry is not erased (R22, R23). -/
def State.pop (s : State) : Except FatalCause (Addr × State) :=
  if h : 0 < s.sp.val then
    let k : Fin 16 := ⟨s.sp.val - 1, by omega⟩
    .ok (s.stack.get k, { s with sp := k.castSucc })
  else .error .stackUnderflow

/-! ## Registers -/

/-- `pc <- a` (R100): no check, no alignment. -/
def State.setPc (s : State) (a : Addr) : State := { s with pc := a }

/-- A skip: 2 more added to PC; the bytes passed over are not looked at (R108). -/
def State.skipIf (s : State) (c : Bool) : State := if c then s.setPc (s.pc + 2) else s

/-- `I <- a` (R17). -/
def State.setI (s : State) (a : Addr) : State := { s with i := a }

/-- VF <- 1 or 0 (R12, R120). -/
def State.setFlag (s : State) (c : Bool) : State := s.setReg regF (flagByte c)

/-- `draw_rand()`: the next byte of RAND, any byte (R132). -/
def State.drawRand (s : State) : Byte × State := (Config.randByte s.draws, { s with draws := s.draws + 1 })

/-! ## Key lines -/

/-- `KEY[k]` for a key number taken from a register; a number above 15 is out of bounds and is not masked (R181). -/
def State.keyLine (s : State) (k : Byte) : Except FatalCause Bool :=
  if h : k.toNat < 16 then .ok (s.key.get ⟨k.toNat, h⟩) else .error (.keyBounds k.toNat)

/-- The lowest-numbered key line that is true (R184). -/
def State.firstKey (s : State) : Option (Fin 16) := (List.finRange 16).find? fun k => s.key.get k

/-! ## Fetch -/

/-- The word at PC: the byte at PC is the high byte, the byte at PC + 1 the low byte (R42, R81). -/
def State.wordAtPc (s : State) : Word :=
  Word.ofBytes (Memory.read s.mem s.pc.toNat) (Memory.read s.mem (s.pc.toNat + 1))

/-- `fetch()`: the word at PC and the state with PC advanced by 2, before decode and execute (R81), or the fault that
reads nothing and leaves PC where it is (R82). -/
def State.fetch (s : State) : Except FatalCause (Word × State) :=
  if s.pc.toNat + 1 > 4095 then .error (.fetchBounds s.pc.toNat) else .ok (s.wordAtPc, s.setPc (s.pc + 2))

/-- An address `fetch` can read an instruction at: PC itself if it can, else the load address (log 19). -/
def State.fetchablePc (s : State) : Addr := if s.pc.toNat + 1 > 4095 then BitVec.ofNat 16 Config.loadAddr else s.pc

/-- The instruction word stored where the next fetch reads it, high byte first, on a machine that is not halted
(log 19). -/
def State.placeWord (s : State) (w : Word) : State :=
  { s with
    pc := s.fetchablePc
    halt := none
    mem := Memory.write (Memory.write s.mem s.fetchablePc.toNat w.hiByte) (s.fetchablePc.toNat + 1) w.loByte }

end Sys2Proof.Machine
end

