-- ==== Sys2Proof/Machine/Alu.lean ====
section
/-! DEFINITION. Register load, arithmetic, logic, shifts and random (42_alu.md). Writes happen in the order of the
rule's clauses, which decides VF when x = 15 (R134, log 10). -/

namespace Sys2Proof.Machine

/-- `set VX,NN` (R121). -/
def execSetImm (x : RegId) (nn : Byte) (s : State) : Host.Outcome State Fault Refusal := .next (s.setReg x nn)

/-- `add VX,NN`: wraps, records no carry (R122). -/
def execAddImm (x : RegId) (nn : Byte) (s : State) : Host.Outcome State Fault Refusal :=
  .next (s.setReg x (s.reg x + nn))

/-- `copy VX,VY` (R123). -/
def execCopy (x y : RegId) (s : State) : Host.Outcome State Fault Refusal := .next (s.setReg x (s.reg y))

/-- `or VX,VY` (R124). -/
def execOr (x y : RegId) (s : State) : Host.Outcome State Fault Refusal := .next (s.setReg x (s.reg x ||| s.reg y))

/-- `and VX,VY` (R125). -/
def execAnd (x y : RegId) (s : State) : Host.Outcome State Fault Refusal := .next (s.setReg x (s.reg x &&& s.reg y))

/-- `xor VX,VY` (R126). -/
def execXor (x y : RegId) (s : State) : Host.Outcome State Fault Refusal := .next (s.setReg x (s.reg x ^^^ s.reg y))

/-- The shape of add, sub and subn: the result, then the flag (R127, R128, R129). -/
def State.resultThenFlag (s : State) (x : RegId) (r : Byte) (c : Bool) : State := (s.setReg x r).setFlag c

/-- `add VX,VY` (R127). -/
def execAddReg (x y : RegId) (s : State) : Host.Outcome State Fault Refusal :=
  .next (s.resultThenFlag x (s.reg x + s.reg y) (carry8 (s.reg x) (s.reg y)))

/-- `sub VX,VY`: VF is 1 when no borrow occurs (R128). -/
def execSub (x y : RegId) (s : State) : Host.Outcome State Fault Refusal :=
  .next (s.resultThenFlag x (s.reg x - s.reg y) (noBorrow (s.reg x) (s.reg y)))

/-- `subn VX,VY`: sub with its operands exchanged (R129). -/
def execSubn (x y : RegId) (s : State) : Host.Outcome State Fault Refusal :=
  .next (s.resultThenFlag x (s.reg y - s.reg x) (noBorrow (s.reg y) (s.reg x)))

/-- The first clause of the shifts: under SHIFT_QUIRK, VX <- VY (R130, R131). -/
def State.shiftSource (s : State) (x y : RegId) : State := if s.cfg.shift then s.setReg x (s.reg y) else s

/-- The other clauses of the shifts: VF <- the bit shifted out, then VX <- VX shifted, read after VF is written
(R130, R131). -/
def State.flagThenShift (s : State) (x : RegId) (out : Byte → Bool) (f : Byte → Byte) : State :=
  (s.setFlag (out (s.reg x))).setReg x (f ((s.setFlag (out (s.reg x))).reg x))

/-- `shr VX,VY` (R130). -/
def execShr (x y : RegId) (s : State) : Host.Outcome State Fault Refusal :=
  .next ((s.shiftSource x y).flagThenShift x shrOut (· >>> 1))

/-- `shl VX,VY` (R131). -/
def execShl (x y : RegId) (s : State) : Host.Outcome State Fault Refusal :=
  .next ((s.shiftSource x y).flagThenShift x shlOut (· <<< 1))

/-- `random VX,NN`: a byte is drawn on every execution, whatever the mask (R132). -/
def execRandom (x : RegId) (nn : Byte) (s : State) : Host.Outcome State Fault Refusal :=
  .next (s.drawRand.2.setReg x (s.drawRand.1 &&& nn))

end Sys2Proof.Machine
end

