-- ==== Sys2Proof/Machine/ControlFlow.lean ====
section
/-! DEFINITION. Control transfer (41_control_flow.md). PC is already p + 2 when an instruction begins (R84, R100). -/

namespace Sys2Proof.Machine

/-- `return` (R101). -/
def execRet (s : State) : Host.Outcome State Fault Refusal :=
  s.attempt s.pop fun r => .next (r.2.setPc r.1)

/-- `jump NNN` (R102). -/
def execJump (nnn : BitVec 12) (s : State) : Host.Outcome State Fault Refusal := .next (s.setPc (addrLit nnn))

/-- `call NNN`: the address pushed is the advanced PC (R103). -/
def execCall (nnn : BitVec 12) (s : State) : Host.Outcome State Fault Refusal :=
  s.attempt (s.push s.pc) fun s' => .next (s'.setPc (addrLit nnn))

/-- `skip-eq VX,NN` (R104). -/
def execSkipEqImm (x : RegId) (nn : Byte) (s : State) : Host.Outcome State Fault Refusal :=
  .next (s.skipIf (s.reg x == nn))

/-- `skip-ne VX,NN` (R105). -/
def execSkipNeImm (x : RegId) (nn : Byte) (s : State) : Host.Outcome State Fault Refusal :=
  .next (s.skipIf (s.reg x != nn))

/-- `skip-eq VX,VY` (R106). -/
def execSkipEqReg (x y : RegId) (s : State) : Host.Outcome State Fault Refusal :=
  .next (s.skipIf (s.reg x == s.reg y))

/-- `skip-ne VX,VY` (R107). -/
def execSkipNeReg (x y : RegId) (s : State) : Host.Outcome State Fault Refusal :=
  .next (s.skipIf (s.reg x != s.reg y))

/-- `jump-offset NNN`: the sum is not reduced to 12 bits (R109, log 17). -/
def execJumpOffset (x : RegId) (nnn : BitVec 12) (s : State) : Host.Outcome State Fault Refusal :=
  .next (s.setPc ((s.reg (s.jumpReg x)).setWidth 16 + addrLit nnn))

end Sys2Proof.Machine
end

