-- ==== Sys2Proof/Machine/Display.lean ====
section
/-! DEFINITION. The display (44_display.md): clear and sprite draw. -/

namespace Sys2Proof.Machine

/-- `FB[row][col]` (R32). -/
def State.cell (s : State) (row : Fin 32) (col : Fin 64) : Bool := (s.fb.get row).get col

/-- `FB[row][col] <- b`. -/
def State.setCell (s : State) (row : Fin 32) (col : Fin 64) (b : Bool) : State :=
  { s with fb := s.fb.set row.val ((s.fb.get row).set col.val b col.isLt) row.isLt }

/-- One set sprite bit on a cell: VF <- 1 if the cell is lit, then the cell is toggled (R162). -/
def State.plot (s : State) (row : Fin 32) (col : Fin 64) : State :=
  (if s.cell row col then s.setFlag true else s).setCell row col (!s.cell row col)

/-- The bits of one sprite row from position c on, bit 7 first; at the right edge the rest of the row is dropped
(R162). -/
def drawBits (row : Fin 32) (ox : Nat) (b : Byte) : List (Fin 8) → State → State
  | [], s => s
  | c :: cs, s =>
    if h : ox + c.val < 64 then
      drawBits row ox b cs (if b.getLsbD (7 - c.val) then s.plot row ⟨ox + c.val, h⟩ else s)
    else s

/-- Sprite rows r, r + 1, ..., as many as the first argument says; at the bottom edge the rest is dropped unread, and
a row whose byte is out of bounds raises with the earlier rows drawn (R162; logs 3 and 16). -/
def drawRows (ox oy : Nat) : Nat → Nat → State → Host.Outcome State Fault Refusal
  | 0, _, s => .next s
  | left + 1, r, s =>
    if h : oy + r < 32 then
      s.attempt (s.memRead (s.dataAddr r)) fun b =>
        drawRows ox oy left (r + 1) (drawBits ⟨oy + r, h⟩ ox b (List.finRange 8) s)
    else .next s

/-- `clear-screen` (R161). -/
def execClearScreen (s : State) : Host.Outcome State Fault Refusal := .next { s with fb := Display.clear }

/-- `draw VX,VY,N`: the origin is read before VF is cleared (R162). -/
def execDraw (x y : RegId) (n : Fin 16) (s : State) : Host.Outcome State Fault Refusal :=
  drawRows (s.originCol x) (s.originRow y) n.val 0 (s.setFlag false)

end Sys2Proof.Machine
end

