-- ==== Sys2Proof/Machine/IndexMemory.lean ====
section
/-! DEFINITION. The index register, loads and stores (43_index_memory.md). -/

namespace Sys2Proof.Machine

/-- `load-index NNN` (R141). -/
def execLoadIndex (nnn : BitVec 12) (s : State) : Host.Outcome State Fault Refusal := .next (s.setI (addrLit nnn))

/-- `add-index VX`: wraps at 16 bits; VF is written on every execution, after I (R142, log 11). -/
def execAddIndex (x : RegId) (s : State) : Host.Outcome State Fault Refusal :=
  .next ((s.setI (s.i + (s.reg x).setWidth 16)).setFlag (carry16 s.i (s.reg x)))

/-- `font-address VX` (R143). -/
def execFontAddress (x : RegId) (s : State) : Host.Outcome State Fault Refusal := .next (s.setI (glyphAddr (s.reg x)))

/-- `store-bcd VX`: ones at I, tens at I + 1, hundreds at I + 2 (R145, log 12). -/
def execStoreBcd (x : RegId) (s : State) : Host.Outcome State Fault Refusal := storeFrom 0 (bcdDigits (s.reg x)) s

/-- `store-regs VX`: V[0] to V[x] at I to I + x (R146). -/
def execStoreRegs (x : RegId) (s : State) : Host.Outcome State Fault Refusal :=
  storeFrom 0 ((regsUpTo x).map s.reg) s

/-- `load-regs VX`: V[0] to V[x] from I to I + x (R147). -/
def execLoadRegs (x : RegId) (s : State) : Host.Outcome State Fault Refusal := loadInto (regsUpTo x) s

end Sys2Proof.Machine
end

