-- ==== Sys2Proof/Machine/KeysTimers.lean ====
section
/-! DEFINITION. Key and timer instructions (45_keys_timers.md). The events `tick` and `set_key` are in Events.lean. -/

namespace Sys2Proof.Machine

/-- `key-pressed VX` (R182). -/
def execKeyPressed (x : RegId) (s : State) : Host.Outcome State Fault Refusal :=
  s.attempt (s.keyLine (s.reg x)) fun down => .next (s.skipIf down)

/-- `key-not-pressed VX` (R183). -/
def execKeyNotPressed (x : RegId) (s : State) : Host.Outcome State Fault Refusal :=
  s.attempt (s.keyLine (s.reg x)) fun down => .next (s.skipIf !down)

/-- `wait-key VX`: the lowest true line's number, or back to p to execute again (R184, log 20). -/
def execWaitKey (x : RegId) (s : State) : Host.Outcome State Fault Refusal :=
  match s.firstKey with
  | some k => .next (s.setReg x (BitVec.ofNat 8 k.val))
  | none => .next (s.setPc (s.pc - 2))

/-- `get-delay VX` (R186). -/
def execGetDelay (x : RegId) (s : State) : Host.Outcome State Fault Refusal := .next (s.setReg x s.dt)

/-- `set-delay VX` (R187). -/
def execSetDelay (x : RegId) (s : State) : Host.Outcome State Fault Refusal := .next { s with dt := s.reg x }

/-- `set-sound VX` (R188). -/
def execSetSound (x : RegId) (s : State) : Host.Outcome State Fault Refusal := .next { s with st := s.reg x }

end Sys2Proof.Machine
end

