-- ==== Sys2Proof/Machine/Dispatch.lean ====
section
/-! DEFINITION. The meaning of each instruction, one arm per constructor (40_step_fetch_decode.md R84). -/

namespace Sys2Proof.Machine

/-- Execute: the instruction's own rule, with PC already advanced past it (R84). -/
def exec (i : Instr) (s : State) : Host.Outcome State Fault Refusal :=
  match i with
  | .clearScreen => Sys2Proof.Machine.execClearScreen s
  | .ret => Sys2Proof.Machine.execRet s
  | .jump nnn => Sys2Proof.Machine.execJump nnn s
  | .call nnn => Sys2Proof.Machine.execCall nnn s
  | .skipEqImm x nn => Sys2Proof.Machine.execSkipEqImm x nn s
  | .skipNeImm x nn => Sys2Proof.Machine.execSkipNeImm x nn s
  | .skipEqReg x y => Sys2Proof.Machine.execSkipEqReg x y s
  | .skipNeReg x y => Sys2Proof.Machine.execSkipNeReg x y s
  | .setImm x nn => Sys2Proof.Machine.execSetImm x nn s
  | .addImm x nn => Sys2Proof.Machine.execAddImm x nn s
  | .copy x y => Sys2Proof.Machine.execCopy x y s
  | .orReg x y => Sys2Proof.Machine.execOr x y s
  | .andReg x y => Sys2Proof.Machine.execAnd x y s
  | .xorReg x y => Sys2Proof.Machine.execXor x y s
  | .addReg x y => Sys2Proof.Machine.execAddReg x y s
  | .sub x y => Sys2Proof.Machine.execSub x y s
  | .subn x y => Sys2Proof.Machine.execSubn x y s
  | .shr x y => Sys2Proof.Machine.execShr x y s
  | .shl x y => Sys2Proof.Machine.execShl x y s
  | .loadIndex nnn => Sys2Proof.Machine.execLoadIndex nnn s
  | .jumpOffset x nnn => Sys2Proof.Machine.execJumpOffset x nnn s
  | .random x nn => Sys2Proof.Machine.execRandom x nn s
  | .draw x y n => Sys2Proof.Machine.execDraw x y n s
  | .keyPressed x => Sys2Proof.Machine.execKeyPressed x s
  | .keyNotPressed x => Sys2Proof.Machine.execKeyNotPressed x s
  | .getDelay x => Sys2Proof.Machine.execGetDelay x s
  | .setDelay x => Sys2Proof.Machine.execSetDelay x s
  | .setSound x => Sys2Proof.Machine.execSetSound x s
  | .addIndex x => Sys2Proof.Machine.execAddIndex x s
  | .waitKey x => Sys2Proof.Machine.execWaitKey x s
  | .fontAddress x => Sys2Proof.Machine.execFontAddress x s
  | .storeBcd x => Sys2Proof.Machine.execStoreBcd x s
  | .storeRegs x => Sys2Proof.Machine.execStoreRegs x s
  | .loadRegs x => Sys2Proof.Machine.execLoadRegs x s

end Sys2Proof.Machine
end

