-- ==== Sys2Proof/Machine/Step.lean ====
section
/-! DEFINITION. The step event: fetch, decode, execute (40_step_fetch_decode.md R80). -/

namespace Sys2Proof.Machine

/-- The state a step leaves. A halted machine has no next state (R87); a fetch fault is raised with PC unchanged (R82);
an unknown word is stepped over (R85); any other word is executed with PC already past it (R81, R84). What the step
REPORTS to the environment (Ok, Unknown, Fatal) is `stepResult` (R86). -/
def step (s : State) : Host.Outcome State Fault Refusal :=
  match s.halt with
  | some c => .fault (.halted c)
  | none =>
    s.attempt s.fetch fun f =>
      match decode f.1 with
      | .ok i => exec i f.2
      | .error _ => .next f.2

/-- The state in which the very next step fetches and runs the given table word (log 19). -/
def State.withFetchWord (s : State) (nbits w : Nat) : State := s.placeWord (tableWord nbits w)

end Sys2Proof.Machine
end

