-- ==== Sys2Proof/Machine/Events.lean ====
section
/-! DEFINITION. The event interface of the core (60_exceptions.md R218): construction, the step's report, tick,
set_key, the two outputs, traces of events and the nominal schedule. -/

namespace Sys2Proof.Machine

/-! ## Construction (70_reset_and_hazards.md R230, R233) -/

/-- The constructor's refusal: the program is longer than 3584 bytes; no machine exists (R203, R233). -/
inductive LoadError where
  | programTooLong
deriving DecidableEq, Repr

/-- `construct(PROGRAM, SHIFT_QUIRK, JUMP_QUIRK)` (R230): the whole image or nothing (R233). GLYPHS is a parameter too,
with the table of R31 as its default (00_scope.md R5; log 8). -/
def construct (program : List Byte) (shift jump : Bool) (table : GlyphTable := defaultGlyphs) :
    Except LoadError State :=
  if program.length > Config.maxProgram then .error .programTooLong
  else .ok { State.reset with mem := Memory.load table program, cfg := ⟨shift, jump⟩ }

/-! ## The report of a step (40_step_fetch_decode.md R86) -/

/-- The three results of a step, the core's whole report about it (R86). -/
inductive StepResult where
  /-- The instruction executed without fault. -/
  | ok
  /-- `Unknown(w, p)`: word w, fetched from address p, is no instruction (R85, R205). -/
  | unknown (w : Word) (p : Nat)
  /-- `Fatal(cause)`: a fault was raised, or the machine was already halted. -/
  | fatal (c : FatalCause)
deriving DecidableEq, Repr

/-- The code of a fatal cause (R200). -/
def FatalCause.code : FatalCause → Nat
  | .fetchBounds _ => 1
  | .dataBounds _ => 2
  | .keyBounds _ => 3
  | .stackOverflow => 4
  | .stackUnderflow => 5

/-- The code of a report, if it is one of R200's causes. -/
def StepResult.code : StepResult → Option Nat
  | .ok => none
  | .unknown _ _ => some 6
  | .fatal c => some c.code

/-- The code of a load error (R200). -/
def LoadError.code : LoadError → Nat
  | .programTooLong => 7

/-- The report of executing an instruction: Fatal if it has latched HALT, else Ok. -/
def execReport : Host.Outcome State Fault Refusal → StepResult
  | .next s =>
    match s.halt with
    | some c => .fatal c
    | none => .ok
  | .fault (.halted c) => .fatal c
  | .refused _ => .ok

/-- What the step from `s` returns to the environment (R80, R85, R86, R87). It is an output, not state: the core keeps
no record of it (R205; log 2). -/
def stepResult (s : State) : StepResult :=
  match s.halt with
  | some c => .fatal c
  | none =>
    match s.fetch with
    | .error c => .fatal c
    | .ok (w, s') =>
      match decode w with
      | .ok i => execReport (exec i s')
      | .error _ => .unknown w s.pc.toNat

/-! ## tick and set_key -/

/-- One timer's countdown, which stops at zero (R190). -/
def countdown (t : Byte) : Byte := if t = 0 then 0 else t - 1

/-- `tick`: both timers count down; nothing on a halted machine (R190, R204). -/
def tick (s : State) : State :=
  match s.halt with
  | some _ => s
  | none => { s with dt := countdown s.dt, st := countdown s.st }

/-- `set_key(k, b)`: one key line changes; nothing on a halted machine (R180, R204). -/
def setKey (k : Fin 16) (b : Bool) (s : State) : State :=
  match s.halt with
  | some _ => s
  | none => { s with key := s.key.set k.val b k.isLt }

/-! ## Outputs -/

/-- read FB: the whole buffer, row-major: cell (row, column) is element row * 64 + column (R32, R216, R218). -/
def readDisplay (s : State) : List Bool := (s.fb.toList.map Vector.toList).flatten

/-- read ST (R217, R218). -/
def readSound (s : State) : Byte := s.st

/-! ## Traces -/

/-- The events that can come to a constructed machine, in any order (R50, R51). -/
inductive Event where
  | step
  | tick
  | setKey (k : Fin 16) (b : Bool)
deriving DecidableEq, Repr

/-- The state after an event. A step that has no next state (a halted machine) leaves the state as it is (R87). -/
def deliver (e : Event) (s : State) : State :=
  match e with
  | .step =>
    match Machine.step s with
    | .next s' => s'
    | .fault _ => s
    | .refused _ => s
  | .tick => Machine.tick s
  | .setKey k b => Machine.setKey k b s

/-- The state after a sequence of events, the first of the list first (R50). -/
def runTrace : List Event → State → State
  | [], s => s
  | e :: es, s => runTrace es (deliver e s)

/-- One frame of the nominal schedule: the key lines that changed, `cycles` steps, one tick (R242). -/
def frameTrace (changes : List (Fin 16 × Bool)) (cycles : Nat) : List Event :=
  changes.map (fun c => .setKey c.1 c.2) ++ List.replicate cycles .step ++ [.tick]

end Sys2Proof.Machine
end

