-- ==== Sys2Proof/Safety.lean ====
section
/-! DEFINITION. What counts as a safe run, and the invariant of the reachable states, in the terms claims use. -/

namespace Sys2Proof.Machine

/-- No fatal fault has happened. A halted state is a failure, never a successful end of a run (60_exceptions.md R204,
R208). -/
abbrev State.Safe (s : State) : Prop := s.halt = none

/-- The run over a trace of events meets no fatal fault: HALT is never cleared, so its end tells (R29). -/
abbrev SafeRun (es : List Event) (s : State) : Prop := (runTrace es s).Safe

/-- What holds of every reachable state beyond what the types say (SP in [0,16], R20, is in the type of `sp`): memory is
in canonical form, PC is at most 4350 (10_state.md R15), and every stack entry is at most 4096 (R15, 41_control_flow.md
R101). -/
structure State.Inv (s : State) : Prop where
  memWf : Memory.wf s.mem
  pcBound : s.pc.toNat ≤ 4350
  stackBound : ∀ k : Fin 16, (s.stack.get k).toNat ≤ 4096

end Sys2Proof.Machine
end

