-- ==== Sys2Proof/Certificates/Slice0/Obligations.lean ====
section
/-! DEFINITION. The statements for the provers. Each docstring names the rule or the section of spec/ it formalises;
"derived" ones also rest on a decision the spec marks as its own (92_eei_decisions.md), on an inference the spec marks as
derived, or on a choice of the model that a log entry names. A conclusion `exec i s = .next { s with … }` is the
completion of the instruction, its result and its frame at once: every field that the record update does not name is
unchanged, memory included. -/

open Sys2Proof Sys2Proof.Machine

namespace Sys2Proof.Certificates

/-- The outcome is a next state that differs from s in general registers only, and register r then holds `f r`. -/
def RegsBecome (o : Host.Outcome State Fault Refusal) (s : State) (f : RegId → Byte) : Prop :=
  ∃ v' : Vector Byte 16, o = .next { s with v := v' } ∧ ∀ r : RegId, v'.get r = f r

/-- The sprite of a draw has a set bit for this cell: the cell is at row offset `row - oy` below n and column offset
`col - ox` below 8 from the origin, and bit 7 - (column offset) of the byte at I + (row offset) is set (R160, R163). -/
def SpriteBit (s : State) (ox oy n : Nat) (row : Fin 32) (col : Fin 64) : Prop :=
  oy ≤ row.val ∧ row.val < oy + n ∧ ox ≤ col.val ∧ col.val < ox + 8 ∧
    (Memory.read s.mem (s.dataAddr (row.val - oy))).getLsbD (7 - (col.val - ox)) = true

/-- Every sprite row that the bottom edge does not clip has its byte in memory (R162, Faults). -/
def SpriteInMemory (s : State) (oy n : Nat) : Prop := ∀ r < n, oy + r < 32 → s.dataAddr r ≤ 4095

/-- After a draw from s: the display and VF as R163 says, nothing else changed. -/
def Drawn (s t : State) (ox oy n : Nat) : Prop :=
  ∃ (v' : Vector Byte 16) (fb' : Display), t = { s with v := v', fb := fb' } ∧
    (∀ row col, (t.cell row col = true ↔ (s.cell row col = true ↔ ¬ SpriteBit s ox oy n row col))) ∧
    (∀ r, r ≠ regF → t.reg r = s.reg r) ∧
    (t.reg regF = 0 ∨ t.reg regF = 1) ∧
    (t.reg regF = 1 ↔ ∃ row col, SpriteBit s ox oy n row col ∧ s.cell row col = true)

end Sys2Proof.Certificates

open Sys2Proof.Certificates

/-! ## Encoding -/

/-- Decode and encode agree on every well-formed instruction, every operand at every value (30_encoding.md R61 to R66;
the bit patterns are the spec's decision D7). -/
def Obligations.DecodeEncodeRoundTrip : Prop :=
  ∀ i : Instr, i.WellFormed → decode (encode i) = .ok i

/-- A word has one meaning and no bit of it is dropped: what it decodes to is well formed and encodes to it
(30_encoding.md R61 to R66, decision D7). -/
def Obligations.DecodedWordEncodesBack : Prop :=
  ∀ (w : Word) (i : Instr), decode w = .ok i → i.WellFormed ∧ encode i = w

/-- Decoding follows the match and mask table: a word decodes to an instruction of the row that selects it, and is
unknown when no row does (30_encoding.md R64, R66, decision D7). -/
def Obligations.DecodeFollowsOpcodeTable : Prop :=
  ∀ w : Word,
    (∀ r ∈ opRows, r.selects w = true → ∃ i, decode w = .ok i ∧ i.rowName = r.name) ∧
    ((∀ r ∈ opRows, r.selects w = false) → decode w = .error (.unknownWord w))

/-- No two rows of the opcode map select the same word (30_encoding.md R64, derived there from R66). -/
def Obligations.OpcodeRowsPairwiseDisjoint : Prop :=
  opRows.Pairwise fun r r' => ∀ w : Word, ¬ (r.selects w = true ∧ r'.selects w = true)

/-- The unknown words, by major opcode (30_encoding.md R67, R68, decision D8). -/
def Obligations.UnknownWordClassification : Prop :=
  ∀ w : Word, decode w = .error (.unknownWord w) ↔
    (w.op = 0 ∧ w.toNat ≠ 0x00E0 ∧ w.toNat ≠ 0x00EE) ∨
    ((w.op = 5 ∨ w.op = 9) ∧ w.n.val ≠ 0) ∨
    (w.op = 8 ∧ 8 ≤ w.n.val ∧ w.n.val ≠ 14) ∨
    (w.op = 14 ∧ w.nn.toNat ≠ 0x9E ∧ w.nn.toNat ≠ 0xA1) ∨
    (w.op = 15 ∧ w.nn.toNat ∉ [0x07, 0x0A, 0x15, 0x18, 0x1E, 0x29, 0x33, 0x55, 0x65])

/-- The four words that the source prints (6A05, 6B03, 8AB4, F029; 30_encoding.md R65), and six more words of the spec's
own opcode map (decision D7, log 9): 10E0 and EFA1 of 95_test_vectors.md section 2.1, B2F0 of 41_control_flow.md section
4, D125 of 95_test_vectors.md section 1, and the unknown 5121 and 0200 of section 2.1 (decision D8, log 9). -/
def Obligations.PrintedWordsDecode : Prop :=
  decode 0x6A05 = .ok (.setImm 10 5) ∧ decode 0x6B03 = .ok (.setImm 11 3) ∧
  decode 0x8AB4 = .ok (.addReg 10 11) ∧ decode 0xF029 = .ok (.fontAddress 0) ∧
  decode 0x10E0 = .ok (.jump 0x0E0) ∧ decode 0xB2F0 = .ok (.jumpOffset 2 0x2F0) ∧
  decode 0xD125 = .ok (.draw 1 2 5) ∧ decode 0xEFA1 = .ok (.keyNotPressed 15) ∧
  decode 0x5121 = .error (.unknownWord 0x5121) ∧ decode 0x0200 = .error (.unknownWord 0x0200)

/-! ## Fetch and step -/

/-- Fetch reads two consecutive bytes big-endian and advances PC by 2, before decode and execute; it faults exactly when
the second address is not in memory (40_step_fetch_decode.md R81). -/
def Obligations.FetchIsBigEndianAndAdvances : Prop :=
  ∀ s : State,
    (s.pc.toNat + 1 > 4095 → s.fetch = .error (.fetchBounds s.pc.toNat)) ∧
    (s.pc.toNat + 1 ≤ 4095 → ∃ w : Word, s.fetch = .ok (w, { s with pc := s.pc + 2 }) ∧
      w.toNat = (Memory.read s.mem s.pc.toNat).toNat <<< 8 ||| (Memory.read s.mem (s.pc.toNat + 1)).toNat ∧
      ∀ i, s.halt = none → decode w = .ok i → step s = exec i { s with pc := s.pc + 2 })

/-- A step of a machine that is not halted and whose bytes at PC decode to an instruction executes exactly it, with PC
already advanced past its word; its report is Fatal exactly as the instruction latched HALT (40_step_fetch_decode.md
R80, R84). -/
def Obligations.StepRunsDecodedInstruction : Prop :=
  ∀ (s : State) (i : Instr), s.halt = none → s.pc.toNat + 1 ≤ 4095 →
    decode (Word.ofBytes (Memory.read s.mem s.pc.toNat) (Memory.read s.mem (s.pc.toNat + 1))) = .ok i →
    step s = exec i { s with pc := s.pc + 2 } ∧ stepResult s = execReport (exec i { s with pc := s.pc + 2 })

/-- An unknown word is reported with its word and address and stepped over; only PC changes (40_step_fetch_decode.md
R85; what the report carries is decision D17). -/
def Obligations.UnknownWordSteppedOver : Prop :=
  ∀ (s : State) (w : Word), s.halt = none → s.pc.toNat + 1 ≤ 4095 →
    w = Word.ofBytes (Memory.read s.mem s.pc.toNat) (Memory.read s.mem (s.pc.toNat + 1)) →
    decode w = .error (.unknownWord w) →
    step s = .next { s with pc := s.pc + 2 } ∧ stepResult s = .unknown w s.pc.toNat

/-- A fetch at 4095 or above halts the machine, with PC and everything else but HALT unchanged (40_step_fetch_decode.md
R82, decisions D2 and D26; logs 1 and 3). -/
def Obligations.FetchPastEndHalts : Prop :=
  ∀ s : State, s.halt = none → 4095 ≤ s.pc.toNat →
    step s = .next { s with halt := some (.fetchBounds s.pc.toNat) } ∧ stepResult s = .fatal (.fetchBounds s.pc.toNat)

/-- A halted machine is frozen: step returns its cause, and no sequence of events changes anything
(40_step_fetch_decode.md R87, 60_exceptions.md R204, decision D2; log 1). -/
def Obligations.HaltedMachineFrozen : Prop :=
  ∀ (s : State) (c : FatalCause), s.halt = some c →
    step s = .fault (.halted c) ∧ stepResult s = .fatal c ∧ ∀ es : List Event, runTrace es s = s

/-- Every instruction has a next state in every state, and so has every step of a machine that is not halted
(40_step_fetch_decode.md R88, 60_exceptions.md R204; that a fault is a next state is log 1). -/
def Obligations.EveryInstructionHasNextState : Prop :=
  (∀ (i : Instr) (s : State), ∃ t, exec i s = .next t) ∧
  (∀ s : State, s.halt = none → ∃ t, step s = .next t)

/-- The complete list of fatal faults that executing an instruction can raise, each with its cause, and PC left at p + 2
(60_exceptions.md R200, R204; names are decision D21, the residue of PC decision D3). -/
def Obligations.OnlyListedFaultsHalt : Prop :=
  ∀ (i : Instr) (s t : State), s.halt = none → exec i s = .next t → t.halt ≠ none →
    t.pc = s.pc ∧
    ((t.halt = some .stackOverflow ∧ s.sp.val = 16 ∧ ∃ nnn, i = .call nnn) ∨
     (t.halt = some .stackUnderflow ∧ s.sp.val = 0 ∧ i = .ret) ∨
     (∃ x, (i = .keyPressed x ∨ i = .keyNotPressed x) ∧ 15 < (s.reg x).toNat ∧
        t.halt = some (.keyBounds (s.reg x).toNat)) ∨
     (∃ k, 4095 < s.dataAddr k ∧ t.halt = some (.dataBounds (s.dataAddr k)) ∧
        ((∃ x y n, i = .draw x y n ∧ k < n.val) ∨ (∃ x, i = .storeBcd x ∧ k < 3) ∨
         (∃ x, (i = .storeRegs x ∨ i = .loadRegs x) ∧ k ≤ x.val))))

/-- The three reports of a step against the state it leaves: Fatal exactly when HALT is latched, with that cause;
Unknown only when nothing but PC changed; Ok otherwise (40_step_fetch_decode.md R86, decisions D2 and D17; log 2). -/
def Obligations.ReportMatchesNextState : Prop :=
  ∀ s t : State, step s = .next t →
    (∀ c, stepResult s = .fatal c ↔ t.halt = some c) ∧
    (∀ w p, stepResult s = .unknown w p → p = s.pc.toNat ∧ t = { s with pc := s.pc + 2 }) ∧
    (t.halt = none → stepResult s = .ok ∨ stepResult s = .unknown s.wordAtPc s.pc.toNat)

/-- What `withFetchWord` places is what the very next step runs (the model's own, log 19; layout 30_encoding.md R60). -/
def Obligations.PlacedWordRunsNext : Prop :=
  ∀ (s : State) (w : Nat) (i : Instr), Memory.wf s.mem → decodeTableWord 16 w = some i →
    step (s.withFetchWord 16 w) =
      exec i { s.withFetchWord 16 w with pc := (s.withFetchWord 16 w).pc + 2 }

/-! ## Invariants -/

/-- Memory stays canonical, PC at most 4350 and stack entries at most 4096 over every step from every state that has
them (10_state.md R15, derived there). -/
def Obligations.InvariantKeptByStep : Prop :=
  ∀ s t : State, s.Inv → step s = .next t → t.Inv

/-- The invariant holds right after reset (10_state.md R34, R15; the values State.reset chooses are logs 4 and 5). -/
def Obligations.InvariantAtReset : Prop := State.reset.Inv

/-- Every state that any sequence of events reaches from any constructed machine, whatever its program, switches and
glyph table, meets the invariant (10_state.md R15, 70_reset_and_hazards.md R230, 00_scope.md R5). -/
def Obligations.ReachableStatesMeetInvariant : Prop :=
  ∀ (program : List Byte) (shift jump : Bool) (table : GlyphTable) (s : State) (es : List Event),
    construct program shift jump table = .ok s → (runTrace es s).Inv

/-! ## Memory -/

/-- The checked accesses: out of bounds above 4095; a write is read back at its address, and every other byte and every
other field is unchanged (20_memory.md R44, R45). -/
def Obligations.CheckedAccessLaws : Prop :=
  ∀ (s : State) (a : Nat) (b : Byte), Memory.wf s.mem →
    (a > 4095 → s.memRead a = .error (.dataBounds a) ∧ s.memWrite a b = .error (.dataBounds a)) ∧
    (a ≤ 4095 → s.memRead a = .ok (Memory.read s.mem a) ∧
      ∃ m', s.memWrite a b = .ok { s with mem := m' } ∧ Memory.wf m' ∧ Memory.read m' a = b ∧
        ∀ c, c ≠ a → Memory.read m' c = Memory.read s.mem c)

/-- Canonical memories that read the same at every address are equal (the model's form of 10_state.md R30; log 7). -/
def Obligations.CanonicalMemoryIsExtensional : Prop :=
  ∀ m m' : Memory, Memory.wf m → Memory.wf m' → (∀ a, Memory.read m a = Memory.read m' a) → m = m'

/-- Self-modifying code: registers stored at PC are the word the very next fetch reads (20_memory.md R54, derived
there). -/
def Obligations.StoredWordIsFetchedNext : Prop :=
  ∀ (s t : State) (x : RegId), Memory.wf s.mem → s.i = s.pc → s.i.toNat + x.val ≤ 4095 → 1 ≤ x.val →
    exec (.storeRegs x) s = .next t →
    t.fetch = .ok (Word.ofBytes (s.reg 0) (s.reg 1), { t with pc := t.pc + 2 })

/-! ## Control transfer -/

/-- jump: always completes, PC takes NNN zero-extended, nothing else changes (41_control_flow.md R102). -/
def Obligations.JumpGoesToLiteral : Prop :=
  ∀ (nnn : BitVec 12) (s : State), ∃ a : Addr, exec (.jump nnn) s = .next { s with pc := a } ∧ a.toNat = nnn.toNat

/-- call: pushes the advanced PC and goes to NNN; a full stack overflows, with nothing pushed and PC left at p + 2
(41_control_flow.md R103, 10_state.md R21; the latch is decision D2, log 1). -/
def Obligations.CallPushesOrOverflows : Prop :=
  ∀ (nnn : BitVec 12) (s : State),
    (s.sp.val < 16 → ∃ (st' : Vector Addr 16) (sp' : Fin 17) (a : Addr),
      exec (.call nnn) s = .next { s with stack := st', sp := sp', pc := a } ∧ a.toNat = nnn.toNat ∧
      sp'.val = s.sp.val + 1 ∧
      ∀ k : Fin 16, st'.get k = if k.val = s.sp.val then s.pc else s.stack.get k) ∧
    (s.sp.val = 16 → exec (.call nnn) s = .next { s with halt := some .stackOverflow })

/-- return: pops into PC, the entry not erased; an empty stack underflows (41_control_flow.md R101, 10_state.md R22,
R23; the latch is decision D2, log 1). -/
def Obligations.ReturnPopsOrUnderflows : Prop :=
  ∀ s : State,
    (∀ k : Fin 16, k.val + 1 = s.sp.val →
      exec .ret s = .next { s with sp := k.castSucc, pc := s.stack.get k }) ∧
    (s.sp.val = 0 → exec .ret s = .next { s with halt := some .stackUnderflow })

/-- The stack round trip: after a call, any later state with the same stack returns to p + 2 with the old SP
(41_control_flow.md R110, derived there). -/
def Obligations.CallReturnRoundTrip : Prop :=
  ∀ (nnn : BitVec 12) (s t u : State), s.halt = none → exec (.call nnn) s = .next t → t.halt = none →
    u.sp = t.sp → u.stack = t.stack → exec .ret u = .next { u with pc := s.pc, sp := s.sp }

/-- The four skips: 2 more on PC when the comparison holds, nothing else (41_control_flow.md R104, R105, R106, R107). -/
def Obligations.SkipsCompareRegisters : Prop :=
  ∀ (x y : RegId) (nn : Byte) (s : State),
    exec (.skipEqImm x nn) s = .next { s with pc := if s.reg x = nn then s.pc + 2 else s.pc } ∧
    exec (.skipNeImm x nn) s = .next { s with pc := if s.reg x = nn then s.pc else s.pc + 2 } ∧
    exec (.skipEqReg x y) s = .next { s with pc := if s.reg x = s.reg y then s.pc + 2 else s.pc } ∧
    exec (.skipNeReg x y) s = .next { s with pc := if s.reg x = s.reg y then s.pc else s.pc + 2 }

/-- jump-offset: V0 + NNN, or VX + NNN under the jump quirk, not reduced (41_control_flow.md R109, decision D25; log
17). -/
def Obligations.JumpOffsetAddsRegister : Prop :=
  ∀ (x : RegId) (nnn : BitVec 12) (s : State), ∃ a : Addr,
    exec (.jumpOffset x nnn) s = .next { s with pc := a } ∧
    a.toNat = (if s.cfg.jump = true then s.reg x else s.reg 0).toNat + nnn.toNat

/-- PC after executing each instruction without a fault, from the advanced PC (10_state.md R16). -/
def Obligations.PcAfterInstruction : Prop :=
  ∀ (i : Instr) (s t : State), s.halt = none → exec i s = .next t → t.halt = none →
    match i with
    | .jump nnn | .call nnn => t.pc.toNat = nnn.toNat
    | .ret => ∃ k : Fin 16, k.val + 1 = s.sp.val ∧ t.pc = s.stack.get k
    | .jumpOffset x nnn => t.pc.toNat = (if s.cfg.jump = true then s.reg x else s.reg 0).toNat + nnn.toNat
    | .skipEqImm x nn => t.pc = if s.reg x = nn then s.pc + 2 else s.pc
    | .skipNeImm x nn => t.pc = if s.reg x = nn then s.pc else s.pc + 2
    | .skipEqReg x y => t.pc = if s.reg x = s.reg y then s.pc + 2 else s.pc
    | .skipNeReg x y => t.pc = if s.reg x = s.reg y then s.pc else s.pc + 2
    | .keyPressed x => ∃ k : Fin 16, (s.reg x).toNat = k.val ∧ t.pc = if s.key.get k = true then s.pc + 2 else s.pc
    | .keyNotPressed x =>
      ∃ k : Fin 16, (s.reg x).toNat = k.val ∧ t.pc = if s.key.get k = true then s.pc else s.pc + 2
    | .waitKey _ => t.pc = if ∃ k : Fin 16, s.key.get k = true then s.pc else s.pc - 2
    | _ => t.pc = s.pc

/-! ## Arithmetic and logic -/

/-- set and add with a literal: VX takes NN, or VX + NN modulo 256; nothing else changes, VF only when named (42_alu.md
R121, R122). -/
def Obligations.SetAndAddLiteral : Prop :=
  ∀ (x : RegId) (nn : Byte) (s : State),
    RegsBecome (exec (.setImm x nn) s) s (fun r => if r = x then nn else s.reg r) ∧
    RegsBecome (exec (.addImm x nn) s) s
      (fun r => if r = x then BitVec.ofNat 8 (((s.reg x).toNat + nn.toNat) % 256) else s.reg r)

/-- copy, or, and, xor: VX takes VY, VX | VY, VX & VY or VX ^ VY; nothing else changes, VF only when named (42_alu.md
R123, R124, R125, R126). -/
def Obligations.CopyAndLogic : Prop :=
  ∀ (x y : RegId) (s : State),
    RegsBecome (exec (.copy x y) s) s (fun r => if r = x then s.reg y else s.reg r) ∧
    RegsBecome (exec (.orReg x y) s) s (fun r => if r = x then s.reg x ||| s.reg y else s.reg r) ∧
    RegsBecome (exec (.andReg x y) s) s (fun r => if r = x then s.reg x &&& s.reg y else s.reg r) ∧
    RegsBecome (exec (.xorReg x y) s) s (fun r => if r = x then s.reg x ^^^ s.reg y else s.reg r)

/-- add with two registers: the sum modulo 256, then the carry in VF, also when x = 15 (42_alu.md R127, R134, decision
D9; log 10). -/
def Obligations.AddSetsCarry : Prop :=
  ∀ (x y : RegId) (s : State),
    RegsBecome (exec (.addReg x y) s) s fun r =>
      if r = regF then (if (s.reg x).toNat + (s.reg y).toNat > 255 then 1 else 0)
      else if r = x then BitVec.ofNat 8 (((s.reg x).toNat + (s.reg y).toNat) % 256)
      else s.reg r

/-- sub and subn: the difference modulo 256, then VF = 1 when no borrow occurred, also when x = 15 (42_alu.md R128,
R129, R134, decisions D9 and D27; log 10). -/
def Obligations.SubtractSetsNoBorrow : Prop :=
  ∀ (x y : RegId) (s : State),
    RegsBecome (exec (.sub x y) s) s (fun r =>
      if r = regF then (if (s.reg x).toNat ≥ (s.reg y).toNat then 1 else 0)
      else if r = x then BitVec.ofNat 8 (((s.reg x).toNat + 256 - (s.reg y).toNat) % 256)
      else s.reg r) ∧
    RegsBecome (exec (.subn x y) s) s (fun r =>
      if r = regF then (if (s.reg y).toNat ≥ (s.reg x).toNat then 1 else 0)
      else if r = x then BitVec.ofNat 8 (((s.reg y).toNat + 256 - (s.reg x).toNat) % 256)
      else s.reg r)

/-- shr and shl of t, which is VY under the shift quirk and VX otherwise: VF takes the bit shifted out, then VX the
shifted value; with x = 15 the flag just written is shifted in its turn (42_alu.md R130, R131, R134, decision D9; log
10). -/
def Obligations.ShiftsSetShiftedOutBit : Prop :=
  ∀ (x y : RegId) (s : State) (t : Nat), t = (if s.cfg.shift = true then s.reg y else s.reg x).toNat →
    RegsBecome (exec (.shr x y) s) s (fun r =>
      if r = x then (if x = regF then 0 else BitVec.ofNat 8 (t / 2))
      else if r = regF then BitVec.ofNat 8 (t % 2) else s.reg r) ∧
    RegsBecome (exec (.shl x y) s) s (fun r =>
      if r = x then (if x = regF then BitVec.ofNat 8 (2 * (t / 128)) else BitVec.ofNat 8 (2 * t % 256))
      else if r = regF then BitVec.ofNat 8 (t / 128) else s.reg r)

/-- random: VX takes the drawn byte masked with NN, whatever the byte is, and one byte is drawn; VX has no bit outside
NN (42_alu.md R132, decision D16; that the byte is `Config.randByte draws` is log 4). -/
def Obligations.RandomIsMaskedDraw : Prop :=
  ∀ (x : RegId) (nn : Byte) (s : State), ∃ v' : Vector Byte 16,
    exec (.random x nn) s = .next { s with v := v', draws := s.draws + 1 } ∧
    (∀ r, v'.get r = if r = x then Config.randByte s.draws &&& nn else s.reg r) ∧
    (∀ b < 8, (v'.get x).getLsbD b = true → nn.getLsbD b = true)

/-! ## Index register, loads and stores -/

/-- load-index: always completes, I takes NNN zero-extended, nothing else changes (43_index_memory.md R141). -/
def Obligations.LoadIndexTakesLiteral : Prop :=
  ∀ (nnn : BitVec 12) (s : State), ∃ a : Addr, exec (.loadIndex nnn) s = .next { s with i := a } ∧ a.toNat = nnn.toNat

/-- add-index: the sum modulo 65536, and VF written on every execution (43_index_memory.md R142, decision D10; log 11). -/
def Obligations.AddIndexWritesFlagAlways : Prop :=
  ∀ (x : RegId) (s : State), ∃ (a : Addr) (v' : Vector Byte 16),
    exec (.addIndex x) s = .next { s with i := a, v := v' } ∧
    a.toNat = (s.i.toNat + (s.reg x).toNat) % 65536 ∧
    ∀ r, v'.get r =
      if r = regF then (if s.i.toNat + (s.reg x).toNat > 65535 then 1 else 0) else s.reg r

/-- font-address: 0x050 + 5 * VX for every VX (43_index_memory.md R143, decision D13; log 15). -/
def Obligations.FontAddressIsFiveTimesDigit : Prop :=
  ∀ (x : RegId) (s : State), ∃ a : Addr,
    exec (.fontAddress x) s = .next { s with i := a } ∧ a.toNat = 0x050 + 5 * (s.reg x).toNat

/-- store-bcd inside memory: ones at I, tens at I + 1, hundreds at I + 2; no other byte changes (43_index_memory.md
R145, decision D11; log 12). -/
def Obligations.StoreBcdWritesDigits : Prop :=
  ∀ (x : RegId) (s : State) (v : Nat), Memory.wf s.mem → s.dataAddr 2 ≤ 4095 → v = (s.reg x).toNat →
    ∃ m', exec (.storeBcd x) s = .next { s with mem := m' } ∧ Memory.wf m' ∧
      (Memory.read m' (s.dataAddr 0)).toNat = v % 10 ∧
      (Memory.read m' (s.dataAddr 1)).toNat = v / 10 % 10 ∧
      (Memory.read m' (s.dataAddr 2)).toNat = v / 100 ∧
      ∀ a, (∀ k < 3, a ≠ s.dataAddr k) → Memory.read m' a = Memory.read s.mem a

/-- store-regs inside memory: V0 to VX at I to I + x; no other byte changes, I is kept (43_index_memory.md R146,
decision D12; log 21). -/
def Obligations.StoreRegsWritesBlock : Prop :=
  ∀ (x : RegId) (s : State), Memory.wf s.mem → s.dataAddr x.val ≤ 4095 →
    ∃ m', exec (.storeRegs x) s = .next { s with mem := m' } ∧ Memory.wf m' ∧
      (∀ r : RegId, r.val ≤ x.val → Memory.read m' (s.dataAddr r.val) = s.reg r) ∧
      ∀ a, (∀ k ≤ x.val, a ≠ s.dataAddr k) → Memory.read m' a = Memory.read s.mem a

/-- load-regs inside memory: V0 to VX from I to I + x; no other register changes, I is kept (43_index_memory.md R147,
decision D12; log 21). -/
def Obligations.LoadRegsReadsBlock : Prop :=
  ∀ (x : RegId) (s : State), s.dataAddr x.val ≤ 4095 →
    RegsBecome (exec (.loadRegs x) s) s fun r =>
      if r.val ≤ x.val then Memory.read s.mem (s.dataAddr r.val) else s.reg r

/-- Stores that run past the end of memory: the bytes below the first address that does not exist are written, that
address is reported, and nothing else changes (43_index_memory.md R140, R145, R146, decision D3; log 3). -/
def Obligations.StoresPastEndKeepEarlierBytes : Prop :=
  ∀ (x : RegId) (s : State) (k : Nat), Memory.wf s.mem → 4095 < s.dataAddr k → (∀ j < k, s.dataAddr j ≤ 4095) →
    (k ≤ x.val → ∃ m',
      exec (.storeRegs x) s = .next { s with mem := m', halt := some (.dataBounds (s.dataAddr k)) } ∧
      (∀ r : RegId, r.val < k → Memory.read m' (s.dataAddr r.val) = s.reg r) ∧
      ∀ a, (∀ j < k, a ≠ s.dataAddr j) → Memory.read m' a = Memory.read s.mem a) ∧
    (k < 3 → ∃ m',
      exec (.storeBcd x) s = .next { s with mem := m', halt := some (.dataBounds (s.dataAddr k)) } ∧
      (0 < k → (Memory.read m' (s.dataAddr 0)).toNat = (s.reg x).toNat % 10) ∧
      (1 < k → (Memory.read m' (s.dataAddr 1)).toNat = (s.reg x).toNat / 10 % 10) ∧
      ∀ a, (∀ j < k, a ≠ s.dataAddr j) → Memory.read m' a = Memory.read s.mem a)

/-- A load that runs past the end of memory has loaded the registers below (43_index_memory.md R140, R147, decision D3;
log 3). -/
def Obligations.LoadPastEndKeepsEarlierRegisters : Prop :=
  ∀ (x q : RegId) (s : State), q.val ≤ x.val → 4095 < s.dataAddr q.val → (∀ j < q.val, s.dataAddr j ≤ 4095) →
    ∃ v' : Vector Byte 16,
      exec (.loadRegs x) s = .next { s with v := v', halt := some (.dataBounds (s.dataAddr q.val)) } ∧
      ∀ r : RegId, v'.get r = if r.val < q.val then Memory.read s.mem (s.dataAddr r.val) else s.reg r

/-! ## Display -/

/-- clear-screen: every cell false, nothing else changes (44_display.md R161). -/
def Obligations.ClearScreenClearsEveryCell : Prop :=
  ∀ s : State, ∃ fb' : Display, exec .clearScreen s = .next { s with fb := fb' } ∧
    ∀ (row : Fin 32) (col : Fin 64), (fb'.get row).get col = false

/-- draw: the cells under set sprite bits inside the clipped rectangle are toggled, VF is the collision, nothing else
changes (44_display.md R162, R163, decision D14; log 16). -/
def Obligations.DrawTogglesSpriteCells : Prop :=
  ∀ (x y : RegId) (n : Fin 16) (s : State), SpriteInMemory s (s.originRow y) n.val →
    ∃ t, exec (.draw x y n) s = .next t ∧ Drawn s t (s.originCol x) (s.originRow y) n.val

/-- A draw whose row k is the first that needs an address past the end of memory: rows 0 to k - 1 are drawn with their
collision result, and that address is reported (44_display.md R162, decision D3; log 3). -/
def Obligations.DrawPastEndKeepsEarlierRows : Prop :=
  ∀ (x y : RegId) (n : Fin 16) (s : State) (k : Nat), k < n.val → s.originRow y + k < 32 → 4095 < s.dataAddr k →
    SpriteInMemory s (s.originRow y) k →
    ∃ t, exec (.draw x y n) s = .next { t with halt := some (.dataBounds (s.dataAddr k)) } ∧
      Drawn s t (s.originCol x) (s.originRow y) k

/-- Drawing the same sprite twice at the same origin restores every cell; the second draw sets VF exactly when some set
bit lies inside the rectangle over a cell that was clear before the first (44_display.md R164, derived there). -/
def Obligations.DrawTwiceRestoresDisplay : Prop :=
  ∀ (x y : RegId) (n : Fin 16) (s : State), x ≠ regF → y ≠ regF → SpriteInMemory s (s.originRow y) n.val →
    ∃ t u, exec (.draw x y n) s = .next t ∧ exec (.draw x y n) t = .next u ∧
      (∀ row col, u.cell row col = s.cell row col) ∧
      (u.reg regF = 1 ↔
        ∃ row col, SpriteBit s (s.originCol x) (s.originRow y) n.val row col ∧ s.cell row col = false)

/-! ## Keys and timers -/

/-- key-pressed and key-not-pressed: the line that VX numbers decides the skip; a number above 15 halts with PC left at
p + 2 (45_keys_timers.md R182, R183, R181, decision D6; log 14). -/
def Obligations.KeySkipsTestLine : Prop :=
  ∀ (x : RegId) (s : State),
    (∀ k : Fin 16, (s.reg x).toNat = k.val →
      exec (.keyPressed x) s = .next { s with pc := if s.key.get k = true then s.pc + 2 else s.pc } ∧
      exec (.keyNotPressed x) s = .next { s with pc := if s.key.get k = true then s.pc else s.pc + 2 }) ∧
    (15 < (s.reg x).toNat →
      exec (.keyPressed x) s = .next { s with halt := some (.keyBounds (s.reg x).toNat) } ∧
      exec (.keyNotPressed x) s = .next { s with halt := some (.keyBounds (s.reg x).toNat) })

/-- wait-key: the lowest true line's number goes to VX; with no line true PC goes back to p and nothing else changes
(45_keys_timers.md R184, decision D28; log 20). -/
def Obligations.WaitKeyTakesLowestLine : Prop :=
  ∀ (x : RegId) (s : State),
    (∀ k : Fin 16, s.key.get k = true → (∀ j < k, s.key.get j = false) →
      RegsBecome (exec (.waitKey x) s) s fun r => if r = x then BitVec.ofNat 8 k.val else s.reg r) ∧
    ((∀ k : Fin 16, s.key.get k = false) → exec (.waitKey x) s = .next { s with pc := s.pc - 2 })

/-- get-delay: VX takes DT. set-delay: DT takes VX. set-sound: ST takes VX. Nothing else changes (45_keys_timers.md
R186, R187, R188). -/
def Obligations.TimerInstructionsMoveBytes : Prop :=
  ∀ (x : RegId) (s : State),
    RegsBecome (exec (.getDelay x) s) s (fun r => if r = x then s.dt else s.reg r) ∧
    exec (.setDelay x) s = .next { s with dt := s.reg x } ∧
    exec (.setSound x) s = .next { s with st := s.reg x }

/-- tick: both timers down by one, each stopping at zero, nothing else; on a halted machine nothing at all
(45_keys_timers.md R190). -/
def Obligations.TickCountsBothTimersDown : Prop :=
  ∀ s : State,
    (s.halt = none → ∃ d t : Byte, tick s = { s with dt := d, st := t } ∧
      d.toNat = s.dt.toNat - 1 ∧ t.toNat = s.st.toNat - 1) ∧
    (s.halt ≠ none → tick s = s)

/-- After k ticks with no set between, each timer reads max(v - k, 0) (45_keys_timers.md R191, derived there). -/
def Obligations.TimersAfterManyTicks : Prop :=
  ∀ (s : State) (k : Nat), s.halt = none →
    ∃ d t : Byte, runTrace (List.replicate k .tick) s = { s with dt := d, st := t } ∧
      d.toNat = s.dt.toNat - k ∧ t.toNat = s.st.toNat - k

/-- set_key: one line changes and nothing else; on a halted machine nothing (45_keys_timers.md R180). -/
def Obligations.SetKeyChangesOneLine : Prop :=
  ∀ (k : Fin 16) (b : Bool) (s : State),
    (s.halt = none → ∃ key' : Vector Bool 16, setKey k b s = { s with key := key' } ∧
      ∀ j : Fin 16, key'.get j = if j = k then b else s.key.get j) ∧
    (s.halt ≠ none → setKey k b s = s)

/-- The idle loop under the nominal schedule: a jump to itself at p runs for ever without a fault, so a frame of any
number of steps changes what its one tick changes and nothing else (41_control_flow.md R102, 70_reset_and_hazards.md
R242). -/
def Obligations.IdleFrameOnlyTicks : Prop :=
  ∀ (s : State) (n : Nat), s.halt = none → s.pc.toNat < 4095 →
    s.wordAtPc.toNat = 0x1000 + s.pc.toNat → runTrace (frameTrace [] n) s = tick s

/-! ## Whole-machine rules -/

/-- Only store-bcd and store-regs change memory, and they only inside I to I + 15 (20_memory.md R57, R48). -/
def Obligations.OnlyStoresWriteMemory : Prop :=
  ∀ (i : Instr) (s t : State), Memory.wf s.mem → exec i s = .next t →
    ((∀ x, i ≠ .storeBcd x) ∧ (∀ x, i ≠ .storeRegs x) → t.mem = s.mem) ∧
    (∀ a, (∀ k < 16, a ≠ s.dataAddr k) → Memory.read t.mem a = Memory.read s.mem a)

/-- Only load-index, add-index and font-address change I (10_state.md R17, decision D12; log 21). -/
def Obligations.OnlyIndexInstructionsWriteIndex : Prop :=
  ∀ (i : Instr) (s t : State), exec i s = .next t → t.i ≠ s.i →
    (∃ nnn, i = .loadIndex nnn) ∨ (∃ x, i = .addIndex x) ∨ (∃ x, i = .fontAddress x)

/-- VF changes only through the seven instructions that write it as a flag, or as the named destination of another
(10_state.md R12, 40_step_fetch_decode.md R84). -/
def Obligations.FlagRegisterWriters : Prop :=
  ∀ (i : Instr) (s t : State), exec i s = .next t → t.reg regF ≠ s.reg regF →
    (∃ x y, i = .addReg x y ∨ i = .sub x y ∨ i = .subn x y ∨ i = .shr x y ∨ i = .shl x y) ∨
    (∃ x y n, i = .draw x y n) ∨ (∃ x, i = .addIndex x) ∨
    (∃ nn, i = .setImm regF nn ∨ i = .addImm regF nn ∨ i = .random regF nn) ∨
    (∃ y, i = .copy regF y ∨ i = .orReg regF y ∨ i = .andReg regF y ∨ i = .xorReg regF y) ∨
    i = .getDelay regF ∨ i = .waitKey regF ∨ i = .loadRegs regF

/-- No instruction writes a key line or a quirk switch (10_state.md R27, R28). -/
def Obligations.NoInstructionWritesKeysOrSwitches : Prop :=
  ∀ (i : Instr) (s t : State), exec i s = .next t → t.key = s.key ∧ t.cfg = s.cfg

/-- Who writes the stack, the timers, the display and the random stream: call and return, set-delay, set-sound,
clear-screen and draw, random (10_state.md R10, R35). The last clause is the model's choice: the spec's machine keeps no
random state, and `draws` is the model's own counter of the bytes drawn (DESIGN CHOICE, log 4). -/
def Obligations.WritersOfOtherState : Prop :=
  ∀ (i : Instr) (s t : State), exec i s = .next t →
    (t.sp ≠ s.sp → (∃ nnn, i = .call nnn) ∨ i = .ret) ∧
    (t.stack ≠ s.stack → ∃ nnn, i = .call nnn) ∧
    (t.dt ≠ s.dt → ∃ x, i = .setDelay x) ∧
    (t.st ≠ s.st → ∃ x, i = .setSound x) ∧
    (t.fb ≠ s.fb → i = .clearScreen ∨ ∃ x y n, i = .draw x y n) ∧
    (t.draws ≠ s.draws → ∃ x nn, i = .random x nn)

/-! ## Reset and load -/

/-- What construction leaves, item by item, for every program that fits and every glyph table; a longer program is
refused whole (10_state.md R34, 70_reset_and_hazards.md R230, R233; GLYPHS is a parameter whose default is the table of
R31, decision D15, log 8; memory elsewhere is decision D5, log 7; stack entries D23, log 6; lengths D24, log 19; `draws`
is the model's own, log 4). -/
def Obligations.ConstructMeetsResetTable : Prop :=
  ∀ (program : List Byte) (shift jump : Bool) (table : GlyphTable),
    (3584 < program.length → construct program shift jump table = .error .programTooLong) ∧
    (program.length ≤ 3584 → ∃ s, construct program shift jump table = .ok s ∧
      (∀ r, s.reg r = 0) ∧ s.i = 0 ∧ s.pc.toNat = 0x200 ∧ s.sp.val = 0 ∧ (∀ k : Fin 16, s.stack.get k = 0) ∧
      s.dt = 0 ∧ s.st = 0 ∧ (∀ row col, s.cell row col = false) ∧ (∀ k : Fin 16, s.key.get k = false) ∧
      s.cfg = ⟨shift, jump⟩ ∧ s.halt = none ∧ s.draws = 0 ∧
      (∀ k : Fin 80, Memory.read s.mem (0x050 + k.val) = table.get k) ∧
      (table = defaultGlyphs → ∀ k, k < 80 → Memory.read s.mem (0x050 + k) = glyphs.getD k 0) ∧
      (∀ k, k < program.length → Memory.read s.mem (0x200 + k) = program.getD k 0) ∧
      (∀ a, (a < 0x050 ∨ 0x0A0 ≤ a ∧ a < 0x200 ∨ 0x200 + program.length ≤ a) → Memory.read s.mem a = 0))

/-- `State.reset` is what construction with the empty program, both switches off and the default glyph table leaves
(70_reset_and_hazards.md R230; that it is this construction is log 19, the switches are DESIGN CHOICE, log 5, the glyph
bytes decision D15, log 8, `draws` log 4); and the first step of that machine reports Unknown(0x0000, 0x200), since the
empty image is accepted (decision D24, log 19), memory there is zero (decision D5, log 7) and the report carries the
word and its address (decision D17, log 24). -/
def Obligations.ResetIsEmptyConstruction : Prop :=
  construct [] false false = .ok State.reset ∧
  (∀ s, construct [] false false = .ok s → stepResult s = .unknown 0x0000 0x200)
end

