-- ==== Sys2Proof/Laws/Decode.lean ====
section
/-! SUPPORT. The fields of a word as quotients and remainders (R61), so that omega can reason about them, and the
fields of the words the encoder builds. -/

namespace Sys2Proof

@[simp] theorem Word.op_eq (w : Word) : w.op = w.toNat / 4096 := by
  have := w.isLt
  simp [Word.op, BitVec.extractLsb'_toNat, Nat.shiftRight_eq_div_pow]; omega

@[simp] theorem Word.x_val (w : Word) : w.x.val = w.toNat / 256 % 16 := by
  simp [Word.x, Nat.shiftRight_eq_div_pow]

@[simp] theorem Word.y_val (w : Word) : w.y.val = w.toNat / 16 % 16 := by
  simp [Word.y, Nat.shiftRight_eq_div_pow]

@[simp] theorem Word.n_val (w : Word) : w.n.val = w.toNat % 16 := by
  simp [Word.n]

@[simp] theorem Word.nn_toNat (w : Word) : w.nn.toNat = w.toNat % 256 := by
  simp [Word.nn, BitVec.extractLsb'_toNat]

@[simp] theorem Word.nnn_toNat (w : Word) : w.nnn.toNat = w.toNat % 4096 := by
  simp [Word.nnn, BitVec.extractLsb'_toNat]

/-- A word of two bytes: (hi << 8) | lo, that is hi * 256 + lo (R81). -/
theorem Word.ofBytes_toNat (hi lo : Byte) : (Word.ofBytes hi lo).toNat = hi.toNat * 256 + lo.toNat := by
  have h : (Word.ofBytes hi lo).toNat = hi.toNat <<< 8 ||| lo.toNat := BitVec.toNat_append hi lo
  rw [h, ← Nat.shiftLeft_add_eq_or_of_lt lo.isLt, Nat.shiftLeft_eq]

/-- The two bytes of a word give the word back (R60, R81). -/
@[simp] theorem Word.ofBytes_bytes (w : Word) : Word.ofBytes w.hiByte w.loByte = w := by
  apply BitVec.eq_of_toNat_eq
  have := w.isLt
  rw [Word.ofBytes_toNat]
  simp [Word.hiByte, Word.loByte, BitVec.extractLsb'_toNat, Nat.shiftRight_eq_div_pow]; omega

theorem encA_toNat {op : Nat} (nnn : BitVec 12) (h : op < 16) : (encA op nnn).toNat = op * 4096 + nnn.toNat := by
  have := nnn.isLt
  simp only [encA, BitVec.toNat_ofNat]; omega

theorem encXI_toNat {op : Nat} (x : RegId) {nn : Nat} (h : op < 16) (hn : nn < 256) :
    (encXI op x nn).toNat = op * 4096 + x.val * 256 + nn := by
  have := x.isLt
  simp only [encXI, BitVec.toNat_ofNat]; omega

theorem encXYN_toNat {op : Nat} (x y : RegId) {n : Nat} (h : op < 16) (hn : n < 16) :
    (encXYN op x y n).toNat = op * 4096 + x.val * 256 + y.val * 16 + n := by
  have := x.isLt
  have := y.isLt
  simp only [encXYN, BitVec.toNat_ofNat]; omega

/-- The fields of a format A word. -/
theorem encA_fields {op : Nat} (nnn : BitVec 12) (h : op < 16) :
    (encA op nnn).op = op ∧ (encA op nnn).nnn = nnn ∧ (encA op nnn).x.val = nnn.toNat / 256 := by
  have h1 := encA_toNat nnn h
  have := nnn.isLt
  refine ⟨?_, BitVec.eq_of_toNat_eq ?_, ?_⟩
  · rw [Word.op_eq, h1]; omega
  · rw [Word.nnn_toNat, h1]; omega
  · rw [Word.x_val, h1]; omega

/-- The fields of a format XI or X word. -/
theorem encXI_fields {op : Nat} (x : RegId) {nn : Nat} (h : op < 16) (hn : nn < 256) :
    (encXI op x nn).op = op ∧ (encXI op x nn).x = x ∧ (encXI op x nn).nn.toNat = nn := by
  have h1 := encXI_toNat x h hn
  have := x.isLt
  refine ⟨?_, Fin.ext ?_, ?_⟩
  · rw [Word.op_eq, h1]; omega
  · rw [Word.x_val, h1]; omega
  · rw [Word.nn_toNat, h1]; omega

/-- The fields of a format XY or XYN word. -/
theorem encXYN_fields {op : Nat} (x y : RegId) {n : Nat} (h : op < 16) (hn : n < 16) :
    (encXYN op x y n).op = op ∧ (encXYN op x y n).x = x ∧ (encXYN op x y n).y = y ∧ (encXYN op x y n).n.val = n := by
  have h1 := encXYN_toNat x y h hn
  have := x.isLt
  have := y.isLt
  refine ⟨?_, Fin.ext ?_, Fin.ext ?_, ?_⟩
  · rw [Word.op_eq, h1]; omega
  · rw [Word.x_val, h1]; omega
  · rw [Word.y_val, h1]; omega
  · rw [Word.n_val, h1]; omega

/-- `decode` accepts a word exactly when `decodeWord` finds its instruction. -/
theorem decode_ok {w : Word} {i : Instr} : decode w = .ok i ↔ decodeWord w = some i := by
  unfold decode; cases decodeWord w <;> simp

theorem decode_error {w : Word} {r : DecodeReject} :
    decode w = .error r ↔ decodeWord w = none ∧ r = .unknownWord w := by
  unfold decode; cases decodeWord w <;> simp [eq_comm]

/-! ## The masks of the opcode map (R66) as quotients and remainders -/

theorem Word.and_F000 (w : Word) : (w &&& 0xF000#16).toNat = w.toNat / 4096 * 4096 := by
  have h : w &&& 0xF000#16 = (w >>> 12) <<< 12 := by
    apply BitVec.eq_of_getElem_eq
    intro i hi
    interval_cases i <;> simp
  have hw := w.isLt
  rw [h, BitVec.toNat_shiftLeft, BitVec.toNat_ushiftRight, Nat.shiftLeft_eq, Nat.shiftRight_eq_div_pow]
  omega

theorem Word.and_000F (w : Word) : (w &&& 0x000F#16).toNat = w.toNat % 16 := by
  rw [BitVec.toNat_and]; exact Nat.and_two_pow_sub_one_eq_mod w.toNat 4

theorem Word.and_00FF (w : Word) : (w &&& 0x00FF#16).toNat = w.toNat % 256 := by
  rw [BitVec.toNat_and]; exact Nat.and_two_pow_sub_one_eq_mod w.toNat 8

theorem Word.and_F00F (w : Word) : (w &&& 0xF00F#16).toNat = w.toNat / 4096 * 4096 + w.toNat % 16 := by
  have h : w &&& 0xF00F#16 = (w &&& 0xF000#16) ||| (w &&& 0x000F#16) := by rw [← BitVec.and_or_distrib_left]; rfl
  rw [h, BitVec.toNat_or, Word.and_F000, Word.and_000F,
    show w.toNat / 4096 * 4096 = (w.toNat / 4096) <<< 12 by rw [Nat.shiftLeft_eq],
    Nat.shiftLeft_add_eq_or_of_lt (by omega)]

theorem Word.and_F0FF (w : Word) : (w &&& 0xF0FF#16).toNat = w.toNat / 4096 * 4096 + w.toNat % 256 := by
  have h : w &&& 0xF0FF#16 = (w &&& 0xF000#16) ||| (w &&& 0x00FF#16) := by rw [← BitVec.and_or_distrib_left]; rfl
  rw [h, BitVec.toNat_or, Word.and_F000, Word.and_00FF,
    show w.toNat / 4096 * 4096 = (w.toNat / 4096) <<< 12 by rw [Nat.shiftLeft_eq],
    Nat.shiftLeft_add_eq_or_of_lt (by omega)]

/-- A row with mask 0xF000 selects the words with its major opcode. -/
theorem OpRow.selects_F000 {name : String} {b w : Word} :
    OpRow.selects ⟨name, b, 0xF000⟩ w = true ↔ w.toNat / 4096 * 4096 = b.toNat := by
  rw [OpRow.selects, beq_iff_eq, ← BitVec.toNat_inj]; exact Word.and_F000 w ▸ Iff.rfl

/-- A row with mask 0xF00F also fixes the fourth nibble. -/
theorem OpRow.selects_F00F {name : String} {b w : Word} :
    OpRow.selects ⟨name, b, 0xF00F⟩ w = true ↔ w.toNat / 4096 * 4096 + w.toNat % 16 = b.toNat := by
  rw [OpRow.selects, beq_iff_eq, ← BitVec.toNat_inj]; exact Word.and_F00F w ▸ Iff.rfl

/-- A row with mask 0xF0FF also fixes the second byte. -/
theorem OpRow.selects_F0FF {name : String} {b w : Word} :
    OpRow.selects ⟨name, b, 0xF0FF⟩ w = true ↔ w.toNat / 4096 * 4096 + w.toNat % 256 = b.toNat := by
  rw [OpRow.selects, beq_iff_eq, ← BitVec.toNat_inj]; exact Word.and_F0FF w ▸ Iff.rfl

/-- A row with mask 0xFFFF selects one word. -/
theorem OpRow.selects_FFFF {name : String} {b w : Word} :
    OpRow.selects ⟨name, b, 0xFFFF⟩ w = true ↔ w.toNat = b.toNat := by
  rw [OpRow.selects, beq_iff_eq, ← BitVec.toNat_inj, show w &&& 0xFFFF = w from BitVec.and_allOnes]

end Sys2Proof
end

