-- ==== Sys2Proof/Laws/Memory.lean ====
section
/-! SUPPORT. The memory list: its operations keep the canonical form, and a read after a write. -/

namespace Sys2Proof.Machine

/-- The first component of `wf`: addresses strictly rising. -/
theorem Memory.wf_tail {c : Host.Cell} {m : Memory} (h : Memory.wf (c :: m)) : Memory.wf m :=
  ⟨(List.pairwise_cons.mp h.1).2, fun d hd => h.2 d (List.mem_cons_of_mem c hd)⟩

/-- Every later entry of a canonical list has a higher address. -/
theorem Memory.wf_head_lt {c : Host.Cell} {m : Memory} (h : Memory.wf (c :: m)) : ∀ d ∈ m, c.1 < d.1 :=
  (List.pairwise_cons.mp h.1).1

@[simp] theorem Memory.wf_nil : Memory.wf [] := ⟨.nil, by simp⟩

theorem Memory.wf_cons {c : Host.Cell} {m : Memory} (hm : Memory.wf m) (hlt : ∀ d ∈ m, c.1 < d.1)
    (hc : c.1 < Config.memSize ∧ c.2 ≠ resetByte c.1) : Memory.wf (c :: m) :=
  ⟨List.pairwise_cons.mpr ⟨hlt, hm.1⟩, fun _ hd => (List.mem_cons.mp hd).elim (fun e => e ▸ hc) (hm.2 _)⟩

/-- An address that no entry lists reads as at reset. -/
theorem Memory.read_unlisted {m : Memory} {a : Nat} (h : ∀ d ∈ m, d.1 ≠ a) : Memory.read m a = resetByte a := by
  induction m with
  | nil => rfl
  | cons c m ih =>
    obtain ⟨k, b⟩ := c
    have hk : k ≠ a := h (k, b) (by simp)
    simp only [Memory.read, hk, if_false]
    exact ih fun d hd => h d (List.mem_cons_of_mem _ hd)

/-- The entries after a write are old entries or the written cell. -/
theorem Memory.mem_write {m : Memory} {a : Nat} {b : Byte} {d : Host.Cell} (h : d ∈ Memory.write m a b) :
    d ∈ m ∨ d = (a, b) := by
  induction m with
  | nil =>
    simp only [Memory.write] at h
    split at h <;> simp_all
  | cons c m ih =>
    obtain ⟨k, e⟩ := c
    simp only [Memory.write] at h
    split at h
    · rcases List.mem_cons.mp h with rfl | h
      · simp
      · rcases ih h with h | h
        · exact .inl (List.mem_cons_of_mem _ h)
        · exact .inr h
    · split at h
      · split at h
        · exact .inl (List.mem_cons_of_mem _ h)
        · rcases List.mem_cons.mp h with rfl | h
          · simp
          · exact .inl (List.mem_cons_of_mem _ h)
      · split at h
        · exact .inl h
        · rcases List.mem_cons.mp h with rfl | h
          · simp
          · exact .inl h

/-- A write keeps the canonical form. -/
theorem Memory.write_wf {m : Memory} {a : Nat} (b : Byte) (hm : Memory.wf m) (ha : a < Config.memSize) :
    Memory.wf (Memory.write m a b) := by
  induction m with
  | nil =>
    simp only [Memory.write]
    split
    · exact hm
    · next hb => exact Memory.wf_cons hm (by simp) ⟨ha, hb⟩
  | cons c m ih =>
    obtain ⟨k, e⟩ := c
    have hlt := Memory.wf_head_lt hm
    have htl := Memory.wf_tail hm
    simp only [Memory.write]
    split
    · next hka =>
      refine Memory.wf_cons (ih htl) (fun d hd => ?_) (hm.2 _ (by simp))
      rcases Memory.mem_write hd with h | rfl
      · exact hlt d h
      · exact hka
    · split
      · next hka =>
        split
        · exact htl
        · next hb => exact Memory.wf_cons htl (fun d hd => hka ▸ hlt d hd) ⟨ha, hb⟩
      · split
        · exact hm
        · next h1 h2 hb =>
          refine Memory.wf_cons hm (fun d hd => ?_) ⟨ha, hb⟩
          rcases List.mem_cons.mp hd with rfl | hd
          · exact by simp only; omega
          · exact lt_trans (by simp only; omega) (hlt d hd)

/-- Writing a sequence of bytes inside memory keeps the canonical form. -/
theorem Memory.writeAll_wf {m : Memory} {a : Nat} (bs : List Byte) (hm : Memory.wf m)
    (ha : a + bs.length ≤ Config.memSize) : Memory.wf (Memory.writeAll m a bs) := by
  induction bs generalizing m a with
  | nil => exact hm
  | cons b bs ih =>
    simp only [List.length_cons] at ha
    exact ih (Memory.write_wf b hm (by omega)) (by omega)

/-- A write leaves every other address as it was. -/
theorem Memory.read_write_of_ne {m : Memory} {a c : Nat} (b : Byte) (h : c ≠ a) :
    Memory.read (Memory.write m a b) c = Memory.read m c := by
  induction m with
  | nil =>
    simp only [Memory.write]
    split <;> simp [Memory.read, h.symm]
  | cons d m ih =>
    obtain ⟨k, e⟩ := d
    simp only [Memory.write]
    split
    · simp only [Memory.read, ih]
    · split
      · next hka =>
        subst hka
        split <;> simp [Memory.read, h.symm]
      · split <;> simp [Memory.read, h.symm]

/-- A read after a write to the same address gives the value written. -/
theorem Memory.read_write_same {m : Memory} (a : Nat) (b : Byte) (hm : Memory.wf m) :
    Memory.read (Memory.write m a b) a = b := by
  induction m with
  | nil =>
    simp only [Memory.write]
    split
    · next hb => exact hb.symm
    · simp [Memory.read]
  | cons d m ih =>
    obtain ⟨k, e⟩ := d
    have hlt := Memory.wf_head_lt hm
    simp only [Memory.write]
    split
    · next hka => simp only [Memory.read, Nat.ne_of_lt hka, if_false]; exact ih (Memory.wf_tail hm)
    · split
      · next hka =>
        split
        · next hb =>
          rw [hb]
          exact Memory.read_unlisted fun d hd => (Nat.ne_of_lt (hka ▸ hlt d hd)).symm
        · simp [Memory.read]
      · next h1 h2 =>
        split
        · next hb =>
          rw [hb]
          refine Memory.read_unlisted fun d hd => ?_
          rcases List.mem_cons.mp hd with rfl | hd
          · exact h2
          · exact (Nat.ne_of_lt (lt_trans (by simp only; omega) (hlt d hd))).symm
        · simp [Memory.read]

/-- What a sequence of writes leaves at each address: the bytes written, and the old bytes elsewhere. -/
theorem Memory.read_writeAll {m : Memory} {a : Nat} (bs : List Byte) (hm : Memory.wf m)
    (ha : a + bs.length ≤ Config.memSize) (c : Nat) :
    Memory.read (Memory.writeAll m a bs) c =
      if a ≤ c ∧ c < a + bs.length then bs.getD (c - a) 0 else Memory.read m c := by
  induction bs generalizing m a with
  | nil => simp [Memory.writeAll]
  | cons b bs ih =>
    simp only [List.length_cons] at ha ⊢
    simp only [Memory.writeAll]
    rw [ih (Memory.write_wf b hm (by omega)) (by omega)]
    rcases Nat.lt_trichotomy c a with h | rfl | h
    · rw [if_neg (by omega), if_neg (by omega), Memory.read_write_of_ne b (by omega)]
    · rw [if_neg (by omega), if_pos (by omega), Memory.read_write_same c b hm]; simp
    · by_cases hc : c < a + 1 + bs.length
      · rw [if_pos (by omega), if_pos (by omega), show c - a = (c - (a + 1)) + 1 by omega, List.getD_cons_succ]
      · rw [if_neg (by omega), if_neg (by omega), Memory.read_write_of_ne b (by omega)]

/-- Writing what unlisted addresses read as lists nothing. -/
theorem Memory.writeAll_resetBytes {bs : List Byte} {a : Nat} (h : ∀ k < bs.length, bs.getD k 0 = resetByte (a + k)) :
    Memory.writeAll [] a bs = [] := by
  induction bs generalizing a with
  | nil => rfl
  | cons b bs ih =>
    have hb : b = resetByte a := h 0 (by simp)
    rw [Memory.writeAll, Memory.write, if_pos hb]
    refine ih fun k hk => ?_
    have := h (k + 1) (by simpa using hk)
    rwa [List.getD_cons_succ, show a + (k + 1) = a + 1 + k by omega] at this

/-- The default glyph table is what memory reads as at reset, so loading it lists nothing. -/
theorem Memory.load_default : Memory.load defaultGlyphs [] = [] := Memory.writeAll_resetBytes (by decide)

/-- The loaded image is canonical, for every glyph table and every program that fits. -/
theorem Memory.load_wf (table : GlyphTable) {program : List Byte} (h : program.length ≤ Config.maxProgram) :
    Memory.wf (Memory.load table program) :=
  Memory.writeAll_wf program
    (Memory.writeAll_wf table.toList Memory.wf_nil (by simp only [Vector.length_toList]; decide))
    (by simp only [Config.loadAddr, Config.memSize, Config.maxProgram] at h ⊢; omega)

/-- What the loaded image reads as at every address. -/
theorem Memory.read_load (table : GlyphTable) {program : List Byte} (h : program.length ≤ Config.maxProgram) (a : Nat) :
    Memory.read (Memory.load table program) a =
      if 0x200 ≤ a ∧ a < 0x200 + program.length then program.getD (a - 0x200) 0
      else if 0x050 ≤ a ∧ a < 0x0A0 then table.toList.getD (a - 0x050) 0 else 0 := by
  have hg : Config.glyphBase + table.toList.length ≤ Config.memSize := by simp only [Vector.length_toList]; decide
  rw [Memory.load, Memory.read_writeAll program (Memory.writeAll_wf _ Memory.wf_nil hg)
    (by simp only [Config.loadAddr, Config.memSize, Config.maxProgram] at h ⊢; omega),
    Memory.read_writeAll _ Memory.wf_nil hg, Vector.length_toList]
  refine if_congr Iff.rfl rfl ?_
  by_cases ha : 0x050 ≤ a ∧ a < 0x0A0
  · rw [if_pos ha]; exact if_pos ha
  · rw [if_neg ha]; exact (if_neg ha).trans (if_neg ha)

end Sys2Proof.Machine
end

