-- ==== Sys2Proof/Laws/State.lean ====
section
/-! SUPPORT. One lemma per field per update of the state, and what the accessors `reg` and `cell` read after an
update, so that no later proof unfolds a record update. -/

namespace Sys2Proof.Machine

/-! ### setReg -/

@[simp] theorem State.setReg_i (s : State) (x : RegId) (b : Byte) : (s.setReg x b).i = s.i := rfl
@[simp] theorem State.setReg_pc (s : State) (x : RegId) (b : Byte) : (s.setReg x b).pc = s.pc := rfl
@[simp] theorem State.setReg_sp (s : State) (x : RegId) (b : Byte) : (s.setReg x b).sp = s.sp := rfl
@[simp] theorem State.setReg_stack (s : State) (x : RegId) (b : Byte) : (s.setReg x b).stack = s.stack := rfl
@[simp] theorem State.setReg_dt (s : State) (x : RegId) (b : Byte) : (s.setReg x b).dt = s.dt := rfl
@[simp] theorem State.setReg_st (s : State) (x : RegId) (b : Byte) : (s.setReg x b).st = s.st := rfl
@[simp] theorem State.setReg_fb (s : State) (x : RegId) (b : Byte) : (s.setReg x b).fb = s.fb := rfl
@[simp] theorem State.setReg_key (s : State) (x : RegId) (b : Byte) : (s.setReg x b).key = s.key := rfl
@[simp] theorem State.setReg_mem (s : State) (x : RegId) (b : Byte) : (s.setReg x b).mem = s.mem := rfl
@[simp] theorem State.setReg_cfg (s : State) (x : RegId) (b : Byte) : (s.setReg x b).cfg = s.cfg := rfl
@[simp] theorem State.setReg_halt (s : State) (x : RegId) (b : Byte) : (s.setReg x b).halt = s.halt := rfl
@[simp] theorem State.setReg_draws (s : State) (x : RegId) (b : Byte) : (s.setReg x b).draws = s.draws := rfl

/-! ### setFlag -/

@[simp] theorem State.setFlag_i (s : State) (c : Bool) : (s.setFlag c).i = s.i := rfl
@[simp] theorem State.setFlag_pc (s : State) (c : Bool) : (s.setFlag c).pc = s.pc := rfl
@[simp] theorem State.setFlag_sp (s : State) (c : Bool) : (s.setFlag c).sp = s.sp := rfl
@[simp] theorem State.setFlag_stack (s : State) (c : Bool) : (s.setFlag c).stack = s.stack := rfl
@[simp] theorem State.setFlag_dt (s : State) (c : Bool) : (s.setFlag c).dt = s.dt := rfl
@[simp] theorem State.setFlag_st (s : State) (c : Bool) : (s.setFlag c).st = s.st := rfl
@[simp] theorem State.setFlag_fb (s : State) (c : Bool) : (s.setFlag c).fb = s.fb := rfl
@[simp] theorem State.setFlag_key (s : State) (c : Bool) : (s.setFlag c).key = s.key := rfl
@[simp] theorem State.setFlag_mem (s : State) (c : Bool) : (s.setFlag c).mem = s.mem := rfl
@[simp] theorem State.setFlag_cfg (s : State) (c : Bool) : (s.setFlag c).cfg = s.cfg := rfl
@[simp] theorem State.setFlag_halt (s : State) (c : Bool) : (s.setFlag c).halt = s.halt := rfl
@[simp] theorem State.setFlag_draws (s : State) (c : Bool) : (s.setFlag c).draws = s.draws := rfl

/-! ### setPc -/

@[simp] theorem State.setPc_v (s : State) (a : Addr) : (s.setPc a).v = s.v := rfl
@[simp] theorem State.setPc_i (s : State) (a : Addr) : (s.setPc a).i = s.i := rfl
@[simp] theorem State.setPc_pc (s : State) (a : Addr) : (s.setPc a).pc = a := rfl
@[simp] theorem State.setPc_sp (s : State) (a : Addr) : (s.setPc a).sp = s.sp := rfl
@[simp] theorem State.setPc_stack (s : State) (a : Addr) : (s.setPc a).stack = s.stack := rfl
@[simp] theorem State.setPc_dt (s : State) (a : Addr) : (s.setPc a).dt = s.dt := rfl
@[simp] theorem State.setPc_st (s : State) (a : Addr) : (s.setPc a).st = s.st := rfl
@[simp] theorem State.setPc_fb (s : State) (a : Addr) : (s.setPc a).fb = s.fb := rfl
@[simp] theorem State.setPc_key (s : State) (a : Addr) : (s.setPc a).key = s.key := rfl
@[simp] theorem State.setPc_mem (s : State) (a : Addr) : (s.setPc a).mem = s.mem := rfl
@[simp] theorem State.setPc_cfg (s : State) (a : Addr) : (s.setPc a).cfg = s.cfg := rfl
@[simp] theorem State.setPc_halt (s : State) (a : Addr) : (s.setPc a).halt = s.halt := rfl
@[simp] theorem State.setPc_draws (s : State) (a : Addr) : (s.setPc a).draws = s.draws := rfl

/-! ### setI -/

@[simp] theorem State.setI_v (s : State) (a : Addr) : (s.setI a).v = s.v := rfl
@[simp] theorem State.setI_i (s : State) (a : Addr) : (s.setI a).i = a := rfl
@[simp] theorem State.setI_pc (s : State) (a : Addr) : (s.setI a).pc = s.pc := rfl
@[simp] theorem State.setI_sp (s : State) (a : Addr) : (s.setI a).sp = s.sp := rfl
@[simp] theorem State.setI_stack (s : State) (a : Addr) : (s.setI a).stack = s.stack := rfl
@[simp] theorem State.setI_dt (s : State) (a : Addr) : (s.setI a).dt = s.dt := rfl
@[simp] theorem State.setI_st (s : State) (a : Addr) : (s.setI a).st = s.st := rfl
@[simp] theorem State.setI_fb (s : State) (a : Addr) : (s.setI a).fb = s.fb := rfl
@[simp] theorem State.setI_key (s : State) (a : Addr) : (s.setI a).key = s.key := rfl
@[simp] theorem State.setI_mem (s : State) (a : Addr) : (s.setI a).mem = s.mem := rfl
@[simp] theorem State.setI_cfg (s : State) (a : Addr) : (s.setI a).cfg = s.cfg := rfl
@[simp] theorem State.setI_halt (s : State) (a : Addr) : (s.setI a).halt = s.halt := rfl
@[simp] theorem State.setI_draws (s : State) (a : Addr) : (s.setI a).draws = s.draws := rfl

/-! ### setCell -/

@[simp] theorem State.setCell_v (s : State) (row : Fin 32) (col : Fin 64) (b : Bool) : (s.setCell row col b).v = s.v := rfl
@[simp] theorem State.setCell_i (s : State) (row : Fin 32) (col : Fin 64) (b : Bool) : (s.setCell row col b).i = s.i := rfl
@[simp] theorem State.setCell_pc (s : State) (row : Fin 32) (col : Fin 64) (b : Bool) : (s.setCell row col b).pc = s.pc := rfl
@[simp] theorem State.setCell_sp (s : State) (row : Fin 32) (col : Fin 64) (b : Bool) : (s.setCell row col b).sp = s.sp := rfl
@[simp] theorem State.setCell_stack (s : State) (row : Fin 32) (col : Fin 64) (b : Bool) : (s.setCell row col b).stack = s.stack := rfl
@[simp] theorem State.setCell_dt (s : State) (row : Fin 32) (col : Fin 64) (b : Bool) : (s.setCell row col b).dt = s.dt := rfl
@[simp] theorem State.setCell_st (s : State) (row : Fin 32) (col : Fin 64) (b : Bool) : (s.setCell row col b).st = s.st := rfl
@[simp] theorem State.setCell_key (s : State) (row : Fin 32) (col : Fin 64) (b : Bool) : (s.setCell row col b).key = s.key := rfl
@[simp] theorem State.setCell_mem (s : State) (row : Fin 32) (col : Fin 64) (b : Bool) : (s.setCell row col b).mem = s.mem := rfl
@[simp] theorem State.setCell_cfg (s : State) (row : Fin 32) (col : Fin 64) (b : Bool) : (s.setCell row col b).cfg = s.cfg := rfl
@[simp] theorem State.setCell_halt (s : State) (row : Fin 32) (col : Fin 64) (b : Bool) : (s.setCell row col b).halt = s.halt := rfl
@[simp] theorem State.setCell_draws (s : State) (row : Fin 32) (col : Fin 64) (b : Bool) : (s.setCell row col b).draws = s.draws := rfl

/-! ### setters that choose or draw -/

@[simp] theorem State.skipIf_v (s : State) (c : Bool) : (s.skipIf c).v = s.v := by
  cases c <;> rfl
@[simp] theorem State.skipIf_i (s : State) (c : Bool) : (s.skipIf c).i = s.i := by
  cases c <;> rfl
@[simp] theorem State.skipIf_sp (s : State) (c : Bool) : (s.skipIf c).sp = s.sp := by
  cases c <;> rfl
@[simp] theorem State.skipIf_stack (s : State) (c : Bool) : (s.skipIf c).stack = s.stack := by
  cases c <;> rfl
@[simp] theorem State.skipIf_dt (s : State) (c : Bool) : (s.skipIf c).dt = s.dt := by
  cases c <;> rfl
@[simp] theorem State.skipIf_st (s : State) (c : Bool) : (s.skipIf c).st = s.st := by
  cases c <;> rfl
@[simp] theorem State.skipIf_fb (s : State) (c : Bool) : (s.skipIf c).fb = s.fb := by
  cases c <;> rfl
@[simp] theorem State.skipIf_key (s : State) (c : Bool) : (s.skipIf c).key = s.key := by
  cases c <;> rfl
@[simp] theorem State.skipIf_mem (s : State) (c : Bool) : (s.skipIf c).mem = s.mem := by
  cases c <;> rfl
@[simp] theorem State.skipIf_cfg (s : State) (c : Bool) : (s.skipIf c).cfg = s.cfg := by
  cases c <;> rfl
@[simp] theorem State.skipIf_halt (s : State) (c : Bool) : (s.skipIf c).halt = s.halt := by
  cases c <;> rfl
@[simp] theorem State.skipIf_draws (s : State) (c : Bool) : (s.skipIf c).draws = s.draws := by
  cases c <;> rfl
@[simp] theorem State.skipIf_pc (s : State) (c : Bool) : (s.skipIf c).pc = if c then s.pc + 2 else s.pc := by
  cases c <;> rfl

@[simp] theorem State.drawRand_v (s : State) : s.drawRand.2.v = s.v := rfl
@[simp] theorem State.drawRand_i (s : State) : s.drawRand.2.i = s.i := rfl
@[simp] theorem State.drawRand_pc (s : State) : s.drawRand.2.pc = s.pc := rfl
@[simp] theorem State.drawRand_sp (s : State) : s.drawRand.2.sp = s.sp := rfl
@[simp] theorem State.drawRand_stack (s : State) : s.drawRand.2.stack = s.stack := rfl
@[simp] theorem State.drawRand_dt (s : State) : s.drawRand.2.dt = s.dt := rfl
@[simp] theorem State.drawRand_st (s : State) : s.drawRand.2.st = s.st := rfl
@[simp] theorem State.drawRand_fb (s : State) : s.drawRand.2.fb = s.fb := rfl
@[simp] theorem State.drawRand_key (s : State) : s.drawRand.2.key = s.key := rfl
@[simp] theorem State.drawRand_mem (s : State) : s.drawRand.2.mem = s.mem := rfl
@[simp] theorem State.drawRand_cfg (s : State) : s.drawRand.2.cfg = s.cfg := rfl
@[simp] theorem State.drawRand_halt (s : State) : s.drawRand.2.halt = s.halt := rfl
@[simp] theorem State.drawRand_draws (s : State) : s.drawRand.2.draws = s.draws + 1 := rfl
@[simp] theorem State.drawRand_byte (s : State) : s.drawRand.1 = Config.randByte s.draws := rfl

@[simp] theorem State.plot_i (s : State) (row : Fin 32) (col : Fin 64) : (s.plot row col).i = s.i := by
  unfold State.plot; split <;> rfl
@[simp] theorem State.plot_pc (s : State) (row : Fin 32) (col : Fin 64) : (s.plot row col).pc = s.pc := by
  unfold State.plot; split <;> rfl
@[simp] theorem State.plot_sp (s : State) (row : Fin 32) (col : Fin 64) : (s.plot row col).sp = s.sp := by
  unfold State.plot; split <;> rfl
@[simp] theorem State.plot_stack (s : State) (row : Fin 32) (col : Fin 64) : (s.plot row col).stack = s.stack := by
  unfold State.plot; split <;> rfl
@[simp] theorem State.plot_dt (s : State) (row : Fin 32) (col : Fin 64) : (s.plot row col).dt = s.dt := by
  unfold State.plot; split <;> rfl
@[simp] theorem State.plot_st (s : State) (row : Fin 32) (col : Fin 64) : (s.plot row col).st = s.st := by
  unfold State.plot; split <;> rfl
@[simp] theorem State.plot_key (s : State) (row : Fin 32) (col : Fin 64) : (s.plot row col).key = s.key := by
  unfold State.plot; split <;> rfl
@[simp] theorem State.plot_mem (s : State) (row : Fin 32) (col : Fin 64) : (s.plot row col).mem = s.mem := by
  unfold State.plot; split <;> rfl
@[simp] theorem State.plot_cfg (s : State) (row : Fin 32) (col : Fin 64) : (s.plot row col).cfg = s.cfg := by
  unfold State.plot; split <;> rfl
@[simp] theorem State.plot_halt (s : State) (row : Fin 32) (col : Fin 64) : (s.plot row col).halt = s.halt := by
  unfold State.plot; split <;> rfl
@[simp] theorem State.plot_draws (s : State) (row : Fin 32) (col : Fin 64) : (s.plot row col).draws = s.draws := by
  unfold State.plot; split <;> rfl

/-! ### What `reg` reads -/

theorem State.reg_eq (s : State) (r : RegId) : s.reg r = s.v.get r := rfl

@[simp] theorem State.reg_setReg_same (s : State) (x : RegId) (b : Byte) : (s.setReg x b).reg x = b := by
  simp [State.reg, State.setReg, Vector.get_eq_getElem]

theorem State.reg_setReg (s : State) (x r : RegId) (b : Byte) :
    (s.setReg x b).reg r = if r = x then b else s.reg r := by
  rcases eq_or_ne r x with rfl | h
  · simp
  · have hv : x.val ≠ r.val := fun e => h (Fin.ext e.symm)
    simp [State.reg, State.setReg, Vector.get_eq_getElem, hv, h]

theorem State.reg_setFlag (s : State) (c : Bool) (r : RegId) :
    (s.setFlag c).reg r = if r = regF then flagByte c else s.reg r := State.reg_setReg s regF r _

@[simp] theorem State.reg_setPc (s : State) (a : Addr) (r : RegId) : (s.setPc a).reg r = s.reg r := rfl

@[simp] theorem State.reg_setI (s : State) (a : Addr) (r : RegId) : (s.setI a).reg r = s.reg r := rfl

@[simp] theorem State.reg_setCell (s : State) (row : Fin 32) (col : Fin 64) (b : Bool) (r : RegId) :
    (s.setCell row col b).reg r = s.reg r := rfl

@[simp] theorem State.reg_skipIf (s : State) (c : Bool) (r : RegId) : (s.skipIf c).reg r = s.reg r := by
  cases c <;> rfl

@[simp] theorem State.reg_drawRand (s : State) (r : RegId) : s.drawRand.2.reg r = s.reg r := rfl

/-! ### What `cell` reads -/

@[simp] theorem State.cell_setReg (s : State) (x : RegId) (b : Byte) (row : Fin 32) (col : Fin 64) :
    (s.setReg x b).cell row col = s.cell row col := rfl

@[simp] theorem State.cell_setFlag (s : State) (c : Bool) (row : Fin 32) (col : Fin 64) :
    (s.setFlag c).cell row col = s.cell row col := rfl

theorem State.cell_setCell (s : State) (row row' : Fin 32) (col col' : Fin 64) (b : Bool) :
    (s.setCell row col b).cell row' col' = if row' = row ∧ col' = col then b else s.cell row' col' := by
  rcases eq_or_ne row' row with rfl | hr
  · rcases eq_or_ne col' col with rfl | hc
    · simp [State.cell, State.setCell, Vector.get_eq_getElem]
    · have hv : col.val ≠ col'.val := fun e => hc (Fin.ext e.symm)
      simp [State.cell, State.setCell, Vector.get_eq_getElem, hv, hc]
  · have hv : row.val ≠ row'.val := fun e => hr (Fin.ext e.symm)
    simp [State.cell, State.setCell, Vector.get_eq_getElem, hv, hr]

/-- A plotted cell is toggled; every other cell is kept. -/
theorem State.cell_plot (s : State) (row row' : Fin 32) (col col' : Fin 64) :
    (s.plot row col).cell row' col' = if row' = row ∧ col' = col then !s.cell row' col' else s.cell row' col' := by
  have h : (s.plot row col).cell row' col' = (s.setCell row col (!s.cell row col)).cell row' col' := by
    unfold State.plot; split <;> rfl
  rw [h, State.cell_setCell]
  by_cases hc : row' = row ∧ col' = col
  · obtain ⟨rfl, rfl⟩ := hc; simp
  · simp [hc]

/-- A plot changes no register but VF, which becomes 1 when the cell was lit. -/
theorem State.reg_plot (s : State) (row : Fin 32) (col : Fin 64) (r : RegId) :
    (s.plot row col).reg r = if r = regF ∧ s.cell row col then 1 else s.reg r := by
  unfold State.plot
  by_cases hc : s.cell row col = true
  · simp [hc, State.reg_setFlag, flagByte]
  · simp [hc]

end Sys2Proof.Machine
end

