-- ==== Sys2Proof/Laws/Ops.lean ====
section
/-! SUPPORT. One lemma per shared operation that says everything it can do; later proofs cite these and do not unfold
the operation. -/

namespace Sys2Proof.Machine

/-! ## Faults -/

/-- A raise latches HALT and changes nothing else. -/
@[simp] theorem State.raise_eq (s : State) (c : FatalCause) : s.raise c = .next { s with halt := some c } := rfl

@[simp] theorem State.attempt_ok {α : Type} (s : State) (a : α) (k : α → Host.Outcome State Fault Refusal) :
    s.attempt (.ok a) k = k a := rfl

@[simp] theorem State.attempt_error {α : Type} (s : State) (c : FatalCause)
    (k : α → Host.Outcome State Fault Refusal) : s.attempt (.error c : Except FatalCause α) k = s.raise c := rfl

/-! ## Checked accesses -/

theorem State.memRead_ok {s : State} {a : Nat} (h : a ≤ 4095) : s.memRead a = .ok (Memory.read s.mem a) :=
  if_neg (by omega)

theorem State.memRead_error {s : State} {a : Nat} (h : 4095 < a) : s.memRead a = .error (.dataBounds a) := if_pos h

theorem State.memWrite_ok {s : State} {a : Nat} (b : Byte) (h : a ≤ 4095) :
    s.memWrite a b = .ok { s with mem := Memory.write s.mem a b } := if_neg (by omega)

theorem State.memWrite_error {s : State} {a : Nat} (b : Byte) (h : 4095 < a) :
    s.memWrite a b = .error (.dataBounds a) := if_pos h

/-- A store of bytes that all lie in memory writes them and changes nothing else. -/
theorem storeFrom_inBounds {k : Nat} {bs : List Byte} {s : State} (h : s.dataAddr k + bs.length ≤ 4096) :
    storeFrom k bs s = .next { s with mem := Memory.writeAll s.mem (s.dataAddr k) bs } := by
  induction bs generalizing k s with
  | nil => rfl
  | cons b bs ih =>
    simp only [List.length_cons] at h
    rw [storeFrom, State.memWrite_ok b (by omega), State.attempt_ok, ih (by simp only [State.dataAddr] at h ⊢; omega)]
    rfl

/-- A store that runs past the end of memory writes the bytes that fit and raises at the first address that does not
exist. -/
theorem storeFrom_pastEnd {k : Nat} {bs : List Byte} {s : State} (hne : bs ≠ [])
    (h : 4096 < s.dataAddr k + bs.length) :
    storeFrom k bs s = .next { s with
      mem := Memory.writeAll s.mem (s.dataAddr k) (bs.take (4096 - s.dataAddr k))
      halt := some (.dataBounds (max (s.dataAddr k) 4096)) } := by
  induction bs generalizing k s with
  | nil => exact absurd rfl hne
  | cons b bs ih =>
    simp only [List.length_cons] at h
    by_cases hk : s.dataAddr k ≤ 4095
    · have hbs : bs ≠ [] := by rintro rfl; simp at h; omega
      rw [storeFrom, State.memWrite_ok b hk, State.attempt_ok, ih hbs (by simp only [State.dataAddr] at h ⊢; omega)]
      have h1 : 4096 - s.dataAddr k = (4096 - s.dataAddr (k + 1)) + 1 := by simp only [State.dataAddr] at hk ⊢; omega
      have h2 : max (s.dataAddr k) 4096 = max (s.dataAddr (k + 1)) 4096 := by
        simp only [State.dataAddr] at hk ⊢; omega
      rw [h1, h2, List.take_succ_cons]
      rfl
    · rw [storeFrom, State.memWrite_error b (by omega), State.attempt_error, State.raise_eq,
        show 4096 - s.dataAddr k = 0 by omega, max_eq_left (by omega)]
      rfl

/-- A load of registers whose bytes all lie in memory loads each from its own address and changes nothing else. -/
theorem loadInto_inBounds {rs : List RegId} {s : State} (h : ∀ r ∈ rs, s.dataAddr r.val ≤ 4095) :
    ∃ v' : Vector Byte 16, loadInto rs s = .next { s with v := v' } ∧
      ∀ r, v'.get r = if r ∈ rs then Memory.read s.mem (s.dataAddr r.val) else s.reg r := by
  induction rs generalizing s with
  | nil => exact ⟨s.v, rfl, fun r => by simp [State.reg]⟩
  | cons q rs ih =>
    have hq := h q (by simp)
    obtain ⟨v', he, hv⟩ := ih (s := s.setReg q (Memory.read s.mem (s.dataAddr q.val)))
      fun r hr => h r (List.mem_cons_of_mem q hr)
    refine ⟨v', ?_, fun r => ?_⟩
    · rw [loadInto, State.memRead_ok hq, State.attempt_ok, he]
      rfl
    · rw [hv, State.reg_setReg]
      by_cases hr : r ∈ rs
      · rw [if_pos hr, if_pos (List.mem_cons_of_mem q hr)]; rfl
      · by_cases hrq : r = q
        · subst hrq; simp [hr]
        · simp [hr, hrq]

/-- A load that meets an address past the end of memory has loaded the registers before it, and raises there. -/
theorem loadInto_pastEnd {pre post : List RegId} {q : RegId} {s : State} (h : ∀ r ∈ pre, s.dataAddr r.val ≤ 4095)
    (hq : 4095 < s.dataAddr q.val) :
    ∃ v' : Vector Byte 16,
      loadInto (pre ++ q :: post) s = .next { s with v := v', halt := some (.dataBounds (s.dataAddr q.val)) } ∧
      ∀ r, v'.get r = if r ∈ pre then Memory.read s.mem (s.dataAddr r.val) else s.reg r := by
  induction pre generalizing s with
  | nil =>
    refine ⟨s.v, ?_, fun r => by simp [State.reg]⟩
    rw [List.nil_append, loadInto, State.memRead_error hq, State.attempt_error, State.raise_eq]
  | cons p pre ih =>
    obtain ⟨v', he, hv⟩ := ih (s := s.setReg p (Memory.read s.mem (s.dataAddr p.val)))
      (fun r hr => h r (List.mem_cons_of_mem p hr)) hq
    refine ⟨v', ?_, fun r => ?_⟩
    · rw [List.cons_append, loadInto, State.memRead_ok (h p (by simp)), State.attempt_ok, he]
      rfl
    · rw [hv, State.reg_setReg]
      by_cases hr : r ∈ pre
      · rw [if_pos hr, if_pos (List.mem_cons_of_mem p hr)]; rfl
      · by_cases hrq : r = p
        · subst hrq; simp [hr]
        · simp [hr, hrq]

/-- The registers of a block transfer are those with numbers up to x. -/
theorem mem_regsUpTo {x r : RegId} : r ∈ regsUpTo x ↔ r.val ≤ x.val := by
  revert x r; decide

@[simp] theorem length_regsUpTo (x : RegId) : (regsUpTo x).length = x.val + 1 := by
  revert x; decide

/-! ## The stack -/

theorem State.push_ok {s : State} (a : Addr) (h : s.sp.val < 16) :
    s.push a = .ok { s with stack := s.stack.set s.sp.val a h, sp := ⟨s.sp.val + 1, Nat.succ_lt_succ h⟩ } := dif_pos h

theorem State.push_full {s : State} (a : Addr) (h : ¬ s.sp.val < 16) : s.push a = .error .stackOverflow := dif_neg h

theorem State.pop_ok {s : State} (h : 0 < s.sp.val) :
    s.pop = .ok (s.stack.get ⟨s.sp.val - 1, by omega⟩, { s with sp := ⟨s.sp.val - 1, by omega⟩ }) := dif_pos h

theorem State.pop_empty {s : State} (h : ¬ 0 < s.sp.val) : s.pop = .error .stackUnderflow := dif_neg h

/-! ## Keys -/

theorem State.keyLine_ok {s : State} {k : Byte} (h : k.toNat < 16) :
    s.keyLine k = .ok (s.key.get ⟨k.toNat, h⟩) := dif_pos h

theorem State.keyLine_error {s : State} {k : Byte} (h : 15 < k.toNat) : s.keyLine k = .error (.keyBounds k.toNat) :=
  dif_neg (by omega)

/-- The scan gives the lowest-numbered true line. -/
theorem State.firstKey_eq_some {s : State} {k : Fin 16} :
    s.firstKey = some k ↔ s.key.get k = true ∧ ∀ j < k, s.key.get j = false := by
  unfold State.firstKey
  rw [List.find?_eq_some_iff_getElem]
  constructor
  · rintro ⟨hk, i, hi, hik, hlt⟩
    simp only [List.getElem_finRange] at hik hlt
    subst hik
    exact ⟨hk, fun j hj => by simpa using hlt j.val hj⟩
  · rintro ⟨hk, hlt⟩
    refine ⟨hk, k.val, by simp, by simp, fun j hj => ?_⟩
    simpa using hlt ⟨j, by omega⟩ hj

theorem State.firstKey_eq_none {s : State} : s.firstKey = none ↔ ∀ k : Fin 16, s.key.get k = false := by
  unfold State.firstKey
  simp [List.find?_eq_none]

/-! ## Fetch -/

theorem State.fetch_ok {s : State} (h : s.pc.toNat + 1 ≤ 4095) :
    s.fetch = .ok (s.wordAtPc, s.setPc (s.pc + 2)) := if_neg (by omega)

theorem State.fetch_error {s : State} (h : 4095 < s.pc.toNat + 1) : s.fetch = .error (.fetchBounds s.pc.toNat) :=
  if_pos h

end Sys2Proof.Machine
end

