-- ==== Sys2Proof/Laws/Display.lean ====
section
/-! SUPPORT. What drawing one sprite row does, cell by cell, and what a draw cannot change. -/

namespace Sys2Proof.Machine

/-- The bits of a list of positions, drawn on a row: each cell under a set bit is toggled, VF becomes 1 when some such
cell was lit, and nothing else changes. The positions are ascending, so the right clip drops a tail. -/
theorem drawBits_spec (row : Fin 32) (ox : Nat) (b : Byte) :
    ∀ (cs : List (Fin 8)) (s : State), cs.Pairwise (· < ·) →
      (∀ (row' : Fin 32) (col : Fin 64), (drawBits row ox b cs s).cell row' col =
        (s.cell row' col ^^ decide (row' = row ∧ ∃ c ∈ cs, ox + c.val = col.val ∧ b.getLsbD (7 - c.val) = true))) ∧
      (∀ r : RegId, (drawBits row ox b cs s).reg r =
        if r = regF ∧ ∃ c ∈ cs, ∃ h : ox + c.val < 64, b.getLsbD (7 - c.val) = true ∧ s.cell row ⟨ox + c.val, h⟩ = true
        then 1 else s.reg r) ∧
      ∃ (v' : Vector Byte 16) (fb' : Display), drawBits row ox b cs s = { s with v := v', fb := fb' }
  | [], s, _ => ⟨by simp [drawBits], by simp [drawBits], s.v, s.fb, rfl⟩
  | c :: cs, s, hp => by
    obtain ⟨hlt, hp'⟩ := List.pairwise_cons.mp hp
    by_cases hc : ox + c.val < 64
    · by_cases hb : b.getLsbD (7 - c.val) = true
      · obtain ⟨h1, h2, v', fb', h3⟩ := drawBits_spec row ox b cs (s.plot row ⟨ox + c.val, hc⟩) hp'
        have he : drawBits row ox b (c :: cs) s = drawBits row ox b cs (s.plot row ⟨ox + c.val, hc⟩) := by
          simp [drawBits, hc, hb]
        refine ⟨fun row' col => ?_, fun r => ?_, v', fb', ?_⟩
        · rw [he, h1, State.cell_plot]
          by_cases hcol : row' = row ∧ col = ⟨ox + c.val, hc⟩
          · obtain ⟨rfl, rfl⟩ := hcol
            have hno : ¬ ∃ d ∈ cs, ox + d.val = ox + c.val ∧ b.getLsbD (7 - d.val) = true := by
              rintro ⟨d, hd, hdc, -⟩
              have := hlt d hd
              omega
            simp only [and_self, if_true, hno]
            simp [hb]
          · have hcol' : row' = row → ¬ ox + c.val = col.val := fun hr hcv => hcol ⟨hr, Fin.ext hcv.symm⟩
            rw [if_neg hcol]
            congr 1
            simp only [List.mem_cons, exists_eq_or_imp, decide_eq_decide]
            constructor
            · rintro ⟨hr, h⟩; exact ⟨hr, .inr h⟩
            · rintro ⟨hr, h | h⟩
              · exact absurd h.1 (hcol' hr)
              · exact ⟨hr, h⟩
        · rw [he, h2]
          have hother : ∀ d ∈ cs, ∀ h : ox + d.val < 64,
              (s.plot row ⟨ox + c.val, hc⟩).cell row ⟨ox + d.val, h⟩ = s.cell row ⟨ox + d.val, h⟩ := by
            intro d hd h
            have hdc := hlt d hd
            rw [State.cell_plot, if_neg]
            rintro ⟨-, e⟩
            have e := congrArg Fin.val e
            simp only at e
            omega
          rw [State.reg_plot]
          have hiff : (∃ d ∈ cs, ∃ h : ox + d.val < 64, b.getLsbD (7 - d.val) = true ∧
                (s.plot row ⟨ox + c.val, hc⟩).cell row ⟨ox + d.val, h⟩ = true) ↔
              ∃ d ∈ cs, ∃ h : ox + d.val < 64, b.getLsbD (7 - d.val) = true ∧ s.cell row ⟨ox + d.val, h⟩ = true := by
            constructor
            · rintro ⟨d, hd, h, hbd, hl⟩; exact ⟨d, hd, h, hbd, hother d hd h ▸ hl⟩
            · rintro ⟨d, hd, h, hbd, hl⟩; exact ⟨d, hd, h, hbd, (hother d hd h).symm ▸ hl⟩
          simp only [hiff]
          by_cases hr : r = regF
          · by_cases hl : s.cell row ⟨ox + c.val, hc⟩ = true
            · simp [hr, hb, hc, hl]
            · simp [hr, hb, hc, hl]
          · simp [hr]
        · rw [he, h3]
          simp
      · obtain ⟨h1, h2, h3⟩ := drawBits_spec row ox b cs s hp'
        have he : drawBits row ox b (c :: cs) s = drawBits row ox b cs s := by simp [drawBits, hc, hb]
        rw [he]
        refine ⟨fun row' col => ?_, fun r => ?_, h3⟩
        · rw [h1]; simp [hb]
        · rw [h2]; simp [hb]
    · have he : drawBits row ox b (c :: cs) s = s := by simp [drawBits, hc]
      have hout : ∀ d ∈ c :: cs, ¬ ox + d.val < 64 := by
        intro d hd
        rcases List.mem_cons.mp hd with rfl | hd
        · exact hc
        · have := hlt d hd; omega
      rw [he]
      refine ⟨fun row' col => ?_, fun r => ?_, s.v, s.fb, rfl⟩
      · have hno : ¬ (row' = row ∧ ∃ d ∈ c :: cs, ox + d.val = col.val ∧ b.getLsbD (7 - d.val) = true) := by
          rintro ⟨-, d, hd, e, -⟩; exact hout d hd (by omega)
        simp only [hno, decide_false, Bool.xor_false]
      · rw [if_neg]
        rintro ⟨-, d, hd, h, -⟩; exact hout d hd h

/-- A draw changes only the display, the registers (VF) and HALT; it always has a next state. -/
theorem drawRows_frame (ox oy : Nat) : ∀ (left r : Nat) (s : State),
    ∃ (v' : Vector Byte 16) (fb' : Display) (h' : Option FatalCause),
      drawRows ox oy left r s = .next { s with v := v', fb := fb', halt := h' }
  | 0, _, s => ⟨s.v, s.fb, s.halt, rfl⟩
  | left + 1, r, s => by
    rw [drawRows]
    split
    · by_cases ha : s.dataAddr r ≤ 4095
      · next hy =>
        obtain ⟨-, -, v1, fb1, h1⟩ := drawBits_spec ⟨oy + r, hy⟩ ox (Memory.read s.mem (s.dataAddr r))
          (List.finRange 8) s (by decide)
        rw [State.memRead_ok ha, State.attempt_ok, h1]
        obtain ⟨v', fb', h', h2⟩ := drawRows_frame ox oy left (r + 1) { s with v := v1, fb := fb1 }
        exact ⟨v', fb', h', h2⟩
      · rw [State.memRead_error (by omega), State.attempt_error, State.raise_eq]
        exact ⟨s.v, s.fb, _, rfl⟩
    · exact ⟨s.v, s.fb, s.halt, rfl⟩

end Sys2Proof.Machine
end

