-- ==== Sys2Proof/Laws/Events.lean ====
section
/-! SUPPORT. What each event function can do, said once. -/

namespace Sys2Proof.Machine

/-- A program that fits gives the reset state with the image loaded and the switches set. -/
theorem construct_ok {program : List Byte} (shift jump : Bool) (table : GlyphTable)
    (h : program.length ≤ Config.maxProgram) :
    construct program shift jump table =
      .ok { State.reset with mem := Memory.load table program, cfg := ⟨shift, jump⟩ } := if_neg (by omega)

/-- A longer program gives no machine. -/
theorem construct_tooLong {program : List Byte} (shift jump : Bool) (table : GlyphTable)
    (h : Config.maxProgram < program.length) : construct program shift jump table = .error .programTooLong := if_pos h

/-- A constructed machine comes from a program that fits. -/
theorem construct_eq_ok {program : List Byte} {shift jump : Bool} {table : GlyphTable} {s : State} :
    construct program shift jump table = .ok s ↔
      program.length ≤ Config.maxProgram ∧
        s = { State.reset with mem := Memory.load table program, cfg := ⟨shift, jump⟩ } := by
  by_cases h : program.length ≤ Config.maxProgram
  · rw [construct_ok shift jump table h]
    exact ⟨fun e => ⟨h, (Except.ok.inj e).symm⟩, fun e => congrArg _ e.2.symm⟩
  · rw [construct_tooLong shift jump table (by omega)]
    exact ⟨(fun e => nomatch e), fun e => absurd e.1 h⟩

theorem tick_running {s : State} (h : s.halt = none) :
    tick s = { s with dt := countdown s.dt, st := countdown s.st } := by rw [tick, h]

theorem tick_halted {s : State} (h : s.halt ≠ none) : tick s = s := by
  obtain ⟨c, hc⟩ := Option.ne_none_iff_exists'.mp h
  rw [tick, hc]

theorem setKey_running {s : State} (k : Fin 16) (b : Bool) (h : s.halt = none) :
    setKey k b s = { s with key := s.key.set k.val b k.isLt } := by rw [setKey, h]

theorem setKey_halted {s : State} (k : Fin 16) (b : Bool) (h : s.halt ≠ none) : setKey k b s = s := by
  obtain ⟨c, hc⟩ := Option.ne_none_iff_exists'.mp h
  rw [setKey, hc]

end Sys2Proof.Machine
end

