-- ==== Sys2Proof/Laws/PerInstr.lean ====
section
/-! SUPPORT. Per-instruction families: one lemma per constructor of Instr. -/

namespace Sys2Proof.Laws.EncodeRow

/-- The encoder's word is selected by the instruction's own row of the opcode map (R66). -/
def Statement (i : Instr) : Prop := ∃ r ∈ opRows, r.name = i.rowName ∧ r.selects (encode i) = true

theorem clearScreen : Statement .clearScreen :=
  ⟨⟨"clear-screen", 0x00E0, 0xFFFF⟩, by decide, rfl, OpRow.selects_FFFF.mpr rfl⟩

theorem ret : Statement .ret :=
  ⟨⟨"return", 0x00EE, 0xFFFF⟩, by decide, rfl, OpRow.selects_FFFF.mpr rfl⟩

theorem jump (nnn : BitVec 12) : Statement (.jump nnn) :=
  ⟨⟨"jump_NNN", 0x1000, 0xF000⟩, by decide, rfl, OpRow.selects_F000.mpr (by
    rw [encode, encA_toNat nnn (by decide)]; have := nnn.isLt; simp; omega)⟩

theorem call (nnn : BitVec 12) : Statement (.call nnn) :=
  ⟨⟨"call_NNN", 0x2000, 0xF000⟩, by decide, rfl, OpRow.selects_F000.mpr (by
    rw [encode, encA_toNat nnn (by decide)]; have := nnn.isLt; simp; omega)⟩

theorem skipEqImm (x : RegId) (nn : Byte) : Statement (.skipEqImm x nn) :=
  ⟨⟨"skip-eq_VX_NN", 0x3000, 0xF000⟩, by decide, rfl, OpRow.selects_F000.mpr (by
    rw [encode, encXI_toNat x (by decide) nn.isLt]; have := nn.isLt; have := x.isLt; simp; omega)⟩

theorem skipNeImm (x : RegId) (nn : Byte) : Statement (.skipNeImm x nn) :=
  ⟨⟨"skip-ne_VX_NN", 0x4000, 0xF000⟩, by decide, rfl, OpRow.selects_F000.mpr (by
    rw [encode, encXI_toNat x (by decide) nn.isLt]; have := nn.isLt; have := x.isLt; simp; omega)⟩

theorem skipEqReg (x : RegId) (y : RegId) : Statement (.skipEqReg x y) :=
  ⟨⟨"skip-eq_VX_VY", 0x5000, 0xF00F⟩, by decide, rfl, OpRow.selects_F00F.mpr (by
    rw [encode, encXYN_toNat x y (by decide) (by decide)]; have := x.isLt; have := y.isLt; simp; omega)⟩

theorem skipNeReg (x : RegId) (y : RegId) : Statement (.skipNeReg x y) :=
  ⟨⟨"skip-ne_VX_VY", 0x9000, 0xF00F⟩, by decide, rfl, OpRow.selects_F00F.mpr (by
    rw [encode, encXYN_toNat x y (by decide) (by decide)]; have := x.isLt; have := y.isLt; simp; omega)⟩

theorem setImm (x : RegId) (nn : Byte) : Statement (.setImm x nn) :=
  ⟨⟨"set_VX_NN", 0x6000, 0xF000⟩, by decide, rfl, OpRow.selects_F000.mpr (by
    rw [encode, encXI_toNat x (by decide) nn.isLt]; have := nn.isLt; have := x.isLt; simp; omega)⟩

theorem addImm (x : RegId) (nn : Byte) : Statement (.addImm x nn) :=
  ⟨⟨"add_VX_NN", 0x7000, 0xF000⟩, by decide, rfl, OpRow.selects_F000.mpr (by
    rw [encode, encXI_toNat x (by decide) nn.isLt]; have := nn.isLt; have := x.isLt; simp; omega)⟩

theorem copy (x : RegId) (y : RegId) : Statement (.copy x y) :=
  ⟨⟨"copy_VX_VY", 0x8000, 0xF00F⟩, by decide, rfl, OpRow.selects_F00F.mpr (by
    rw [encode, encXYN_toNat x y (by decide) (by decide)]; have := x.isLt; have := y.isLt; simp; omega)⟩

theorem orReg (x : RegId) (y : RegId) : Statement (.orReg x y) :=
  ⟨⟨"or_VX_VY", 0x8001, 0xF00F⟩, by decide, rfl, OpRow.selects_F00F.mpr (by
    rw [encode, encXYN_toNat x y (by decide) (by decide)]; have := x.isLt; have := y.isLt; simp; omega)⟩

theorem andReg (x : RegId) (y : RegId) : Statement (.andReg x y) :=
  ⟨⟨"and_VX_VY", 0x8002, 0xF00F⟩, by decide, rfl, OpRow.selects_F00F.mpr (by
    rw [encode, encXYN_toNat x y (by decide) (by decide)]; have := x.isLt; have := y.isLt; simp; omega)⟩

theorem xorReg (x : RegId) (y : RegId) : Statement (.xorReg x y) :=
  ⟨⟨"xor_VX_VY", 0x8003, 0xF00F⟩, by decide, rfl, OpRow.selects_F00F.mpr (by
    rw [encode, encXYN_toNat x y (by decide) (by decide)]; have := x.isLt; have := y.isLt; simp; omega)⟩

theorem addReg (x : RegId) (y : RegId) : Statement (.addReg x y) :=
  ⟨⟨"add_VX_VY", 0x8004, 0xF00F⟩, by decide, rfl, OpRow.selects_F00F.mpr (by
    rw [encode, encXYN_toNat x y (by decide) (by decide)]; have := x.isLt; have := y.isLt; simp; omega)⟩

theorem sub (x : RegId) (y : RegId) : Statement (.sub x y) :=
  ⟨⟨"sub_VX_VY", 0x8005, 0xF00F⟩, by decide, rfl, OpRow.selects_F00F.mpr (by
    rw [encode, encXYN_toNat x y (by decide) (by decide)]; have := x.isLt; have := y.isLt; simp; omega)⟩

theorem subn (x : RegId) (y : RegId) : Statement (.subn x y) :=
  ⟨⟨"subn_VX_VY", 0x8007, 0xF00F⟩, by decide, rfl, OpRow.selects_F00F.mpr (by
    rw [encode, encXYN_toNat x y (by decide) (by decide)]; have := x.isLt; have := y.isLt; simp; omega)⟩

theorem shr (x : RegId) (y : RegId) : Statement (.shr x y) :=
  ⟨⟨"shr_VX_VY", 0x8006, 0xF00F⟩, by decide, rfl, OpRow.selects_F00F.mpr (by
    rw [encode, encXYN_toNat x y (by decide) (by decide)]; have := x.isLt; have := y.isLt; simp; omega)⟩

theorem shl (x : RegId) (y : RegId) : Statement (.shl x y) :=
  ⟨⟨"shl_VX_VY", 0x800E, 0xF00F⟩, by decide, rfl, OpRow.selects_F00F.mpr (by
    rw [encode, encXYN_toNat x y (by decide) (by decide)]; have := x.isLt; have := y.isLt; simp; omega)⟩

theorem loadIndex (nnn : BitVec 12) : Statement (.loadIndex nnn) :=
  ⟨⟨"load-index_NNN", 0xA000, 0xF000⟩, by decide, rfl, OpRow.selects_F000.mpr (by
    rw [encode, encA_toNat nnn (by decide)]; have := nnn.isLt; simp; omega)⟩

theorem jumpOffset (x : RegId) (nnn : BitVec 12) : Statement (.jumpOffset x nnn) :=
  ⟨⟨"jump-offset_NNN", 0xB000, 0xF000⟩, by decide, rfl, OpRow.selects_F000.mpr (by
    rw [encode, encA_toNat nnn (by decide)]; have := nnn.isLt; simp; omega)⟩

theorem random (x : RegId) (nn : Byte) : Statement (.random x nn) :=
  ⟨⟨"random_VX_NN", 0xC000, 0xF000⟩, by decide, rfl, OpRow.selects_F000.mpr (by
    rw [encode, encXI_toNat x (by decide) nn.isLt]; have := nn.isLt; have := x.isLt; simp; omega)⟩

theorem draw (x : RegId) (y : RegId) (n : Fin 16) : Statement (.draw x y n) :=
  ⟨⟨"draw_VX_VY_N", 0xD000, 0xF000⟩, by decide, rfl, OpRow.selects_F000.mpr (by
    rw [encode, encXYN_toNat x y (by decide) n.isLt]; have := x.isLt; have := y.isLt; have := n.isLt; simp; omega)⟩

theorem keyPressed (x : RegId) : Statement (.keyPressed x) :=
  ⟨⟨"key-pressed_VX", 0xE09E, 0xF0FF⟩, by decide, rfl, OpRow.selects_F0FF.mpr (by
    rw [encode, encXI_toNat x (by decide) (by decide)]; have := x.isLt; simp; omega)⟩

theorem keyNotPressed (x : RegId) : Statement (.keyNotPressed x) :=
  ⟨⟨"key-not-pressed_VX", 0xE0A1, 0xF0FF⟩, by decide, rfl, OpRow.selects_F0FF.mpr (by
    rw [encode, encXI_toNat x (by decide) (by decide)]; have := x.isLt; simp; omega)⟩

theorem getDelay (x : RegId) : Statement (.getDelay x) :=
  ⟨⟨"get-delay_VX", 0xF007, 0xF0FF⟩, by decide, rfl, OpRow.selects_F0FF.mpr (by
    rw [encode, encXI_toNat x (by decide) (by decide)]; have := x.isLt; simp; omega)⟩

theorem setDelay (x : RegId) : Statement (.setDelay x) :=
  ⟨⟨"set-delay_VX", 0xF015, 0xF0FF⟩, by decide, rfl, OpRow.selects_F0FF.mpr (by
    rw [encode, encXI_toNat x (by decide) (by decide)]; have := x.isLt; simp; omega)⟩

theorem setSound (x : RegId) : Statement (.setSound x) :=
  ⟨⟨"set-sound_VX", 0xF018, 0xF0FF⟩, by decide, rfl, OpRow.selects_F0FF.mpr (by
    rw [encode, encXI_toNat x (by decide) (by decide)]; have := x.isLt; simp; omega)⟩

theorem addIndex (x : RegId) : Statement (.addIndex x) :=
  ⟨⟨"add-index_VX", 0xF01E, 0xF0FF⟩, by decide, rfl, OpRow.selects_F0FF.mpr (by
    rw [encode, encXI_toNat x (by decide) (by decide)]; have := x.isLt; simp; omega)⟩

theorem waitKey (x : RegId) : Statement (.waitKey x) :=
  ⟨⟨"wait-key_VX", 0xF00A, 0xF0FF⟩, by decide, rfl, OpRow.selects_F0FF.mpr (by
    rw [encode, encXI_toNat x (by decide) (by decide)]; have := x.isLt; simp; omega)⟩

theorem fontAddress (x : RegId) : Statement (.fontAddress x) :=
  ⟨⟨"font-address_VX", 0xF029, 0xF0FF⟩, by decide, rfl, OpRow.selects_F0FF.mpr (by
    rw [encode, encXI_toNat x (by decide) (by decide)]; have := x.isLt; simp; omega)⟩

theorem storeBcd (x : RegId) : Statement (.storeBcd x) :=
  ⟨⟨"store-bcd_VX", 0xF033, 0xF0FF⟩, by decide, rfl, OpRow.selects_F0FF.mpr (by
    rw [encode, encXI_toNat x (by decide) (by decide)]; have := x.isLt; simp; omega)⟩

theorem storeRegs (x : RegId) : Statement (.storeRegs x) :=
  ⟨⟨"store-regs_VX", 0xF055, 0xF0FF⟩, by decide, rfl, OpRow.selects_F0FF.mpr (by
    rw [encode, encXI_toNat x (by decide) (by decide)]; have := x.isLt; simp; omega)⟩

theorem loadRegs (x : RegId) : Statement (.loadRegs x) :=
  ⟨⟨"load-regs_VX", 0xF065, 0xF0FF⟩, by decide, rfl, OpRow.selects_F0FF.mpr (by
    rw [encode, encXI_toNat x (by decide) (by decide)]; have := x.isLt; simp; omega)⟩

end Sys2Proof.Laws.EncodeRow
end

