-- ==== Sys2Proof/Laws/Step.lean ====
section
/-! SUPPORT. Everything a step can do, said once. -/

namespace Sys2Proof.Machine

/-- The ways a step can have a next state: a fetch fault, an unknown word, an executed instruction. -/
theorem step_cases {s t : State} (h : step s = .next t) :
    s.halt = none ∧
      ((4095 < s.pc.toNat + 1 ∧ t = { s with halt := some (.fetchBounds s.pc.toNat) }) ∨
       (s.pc.toNat + 1 ≤ 4095 ∧ decode s.wordAtPc = .error (.unknownWord s.wordAtPc) ∧ t = s.setPc (s.pc + 2)) ∨
       (∃ i, s.pc.toNat + 1 ≤ 4095 ∧ decode s.wordAtPc = .ok i ∧ exec i (s.setPc (s.pc + 2)) = .next t)) := by
  unfold step at h
  cases hh : s.halt with
  | some c => rw [hh] at h; cases h
  | none =>
    rw [hh] at h
    refine ⟨rfl, ?_⟩
    by_cases hp : s.pc.toNat + 1 ≤ 4095
    · rw [State.fetch_ok hp, State.attempt_ok] at h
      cases hd : decode s.wordAtPc with
      | error r =>
        rw [hd] at h
        obtain ⟨-, rfl⟩ := decode_error.mp hd
        exact .inr (.inl ⟨hp, rfl, (Host.Outcome.next.inj h).symm⟩)
      | ok i => rw [hd] at h; exact .inr (.inr ⟨i, hp, rfl, h⟩)
    · rw [State.fetch_error (by omega), State.attempt_error, State.raise_eq] at h
      exact .inl ⟨by omega, (Host.Outcome.next.inj h).symm⟩

/-- The word a placed word's fetch reads is that word. -/
theorem State.wordAtPc_placeWord {s : State} (w : Word) (hm : Memory.wf s.mem) : (s.placeWord w).wordAtPc = w := by
  have hp : s.fetchablePc.toNat + 1 ≤ 4095 := by
    unfold State.fetchablePc; split
    · decide
    · omega
  have h1 : Memory.read (s.placeWord w).mem s.fetchablePc.toNat = w.hiByte := by
    show Memory.read (Memory.write (Memory.write s.mem _ _) _ _) _ = _
    rw [Memory.read_write_of_ne _ (by omega), Memory.read_write_same _ _ hm]
  have h2 : Memory.read (s.placeWord w).mem (s.fetchablePc.toNat + 1) = w.loByte := by
    show Memory.read (Memory.write (Memory.write s.mem _ _) _ _) _ = _
    rw [Memory.read_write_same _ _ (Memory.write_wf _ hm (show s.fetchablePc.toNat < 4096 by omega))]
  show Word.ofBytes (Memory.read (s.placeWord w).mem s.fetchablePc.toNat)
    (Memory.read (s.placeWord w).mem (s.fetchablePc.toNat + 1)) = w
  rw [h1, h2, Word.ofBytes_bytes]

/-- Placing a word keeps the canonical form of memory. -/
theorem State.placeWord_wf {s : State} (w : Word) (hm : Memory.wf s.mem) : Memory.wf (s.placeWord w).mem := by
  have hp : s.fetchablePc.toNat + 1 ≤ 4095 := by
    unfold State.fetchablePc; split
    · decide
    · omega
  exact Memory.write_wf _ (Memory.write_wf _ hm (show _ < 4096 by omega)) (show _ < 4096 by omega)

end Sys2Proof.Machine
end

