-- ==== Sys2Proof/Tests/Slice0.lean ====
section
/-! SUPPORT. Tests, with expected results from 95_test_vectors.md (the vector's id stands in each docstring) or from the
encodings of 30_encoding.md R66, and for each obligation that has hypotheses a witness that meets them. -/

namespace Sys2Proof.Tests

open Sys2Proof Sys2Proof.Machine Sys2Proof.Certificates

/-- The reset machine, set up by f, with one table word where it fetches next. -/
def start (f : State → State) (w : Nat) : State := (f State.reset).withFetchWord 16 w

/-- What f reads from the state an outcome leaves. -/
def after {α : Type} (o : Host.Outcome State Fault Refusal) (f : State → α) : Option α :=
  match o with
  | .next s => some (f s)
  | _ => none

/-- PC set to an address. -/
def atPc (a : Addr) (s : State) : State := s.setPc a

/-- One byte of memory set. -/
def poke (a : Nat) (b : Byte) (s : State) : State := { s with mem := Memory.write s.mem a b }

/-! ## WellFormed: its one check refuses an ill-formed term -/

theorem test_wellFormed_jumpOffset_refused : ¬ (Instr.jumpOffset 3 0x2F0).WellFormed := by decide

theorem test_wellFormed_jumpOffset_accepted : (Instr.jumpOffset 2 0x2F0).WellFormed := by decide

/-! ## Decoding: a word written out bit by bit from R66 for every constructor -/

/-- Rows 1 to 4 (formats Z and A). -/
theorem test_decode_control :
    decodeWord 0b0000000011100000 = some .clearScreen ∧ decodeWord 0b0000000011101110 = some .ret ∧
    decodeWord 0b0001001000110100 = some (.jump 0x234) ∧ decodeWord 0b0010111111111111 = some (.call 0xFFF) := by decide

/-- Rows 5 to 8: the skips, V3 with 0x2A, V1 with V2. -/
theorem test_decode_skips :
    decodeWord 0b0011001100101010 = some (.skipEqImm 3 0x2A) ∧
    decodeWord 0b0100001100101010 = some (.skipNeImm 3 0x2A) ∧
    decodeWord 0b0101000100100000 = some (.skipEqReg 1 2) ∧
    decodeWord 0b1001000100100000 = some (.skipNeReg 1 2) := by decide

/-- Rows 9 to 19: VA and VB. -/
theorem test_decode_alu :
    decodeWord 0b0110101000000101 = some (.setImm 10 5) ∧ decodeWord 0b0111101000000101 = some (.addImm 10 5) ∧
    decodeWord 0b1000101010110000 = some (.copy 10 11) ∧ decodeWord 0b1000101010110001 = some (.orReg 10 11) ∧
    decodeWord 0b1000101010110010 = some (.andReg 10 11) ∧ decodeWord 0b1000101010110011 = some (.xorReg 10 11) ∧
    decodeWord 0b1000101010110100 = some (.addReg 10 11) ∧ decodeWord 0b1000101010110101 = some (.sub 10 11) ∧
    decodeWord 0b1000101010110111 = some (.subn 10 11) ∧ decodeWord 0b1000101010110110 = some (.shr 10 11) ∧
    decodeWord 0b1000101010111110 = some (.shl 10 11) := by decide

/-- Rows 20 to 23. -/
theorem test_decode_literal :
    decodeWord 0b1010001100000000 = some (.loadIndex 0x300) ∧
    decodeWord 0b1011001011110000 = some (.jumpOffset 2 0x2F0) ∧
    decodeWord 0b1100001100001111 = some (.random 3 0x0F) ∧
    decodeWord 0b1101000100100101 = some (.draw 1 2 5) := by decide

/-- Rows 24 to 34: V5. -/
theorem test_decode_x :
    decodeWord 0b1110010110011110 = some (.keyPressed 5) ∧ decodeWord 0b1110010110100001 = some (.keyNotPressed 5) ∧
    decodeWord 0b1111010100000111 = some (.getDelay 5) ∧ decodeWord 0b1111010100010101 = some (.setDelay 5) ∧
    decodeWord 0b1111010100011000 = some (.setSound 5) ∧ decodeWord 0b1111010100011110 = some (.addIndex 5) ∧
    decodeWord 0b1111010100001010 = some (.waitKey 5) ∧ decodeWord 0b1111010100101001 = some (.fontAddress 5) ∧
    decodeWord 0b1111010100110011 = some (.storeBcd 5) ∧ decodeWord 0b1111010101010101 = some (.storeRegs 5) ∧
    decodeWord 0b1111010101100101 = some (.loadRegs 5) := by decide

/-- The unknown words that section 2.1 of 95_test_vectors.md lists. -/
theorem test_decode_unknown :
    ([0x00E1, 0x00EF, 0x0000, 0x0200, 0x5121, 0x912F, 0x8AB8, 0x8AB9, 0x8ABF, 0x8ABD, 0xE09F, 0xE0A0, 0xF000, 0xF00B,
      0xFF66, 0xFFFF, 0xF075, 0xF085] : List Word).all (fun w => (decodeWord w).isNone) = true := by decide

/-- The host's view of the decoder: high byte first, and only the row's bits. -/
theorem test_decodeTableWord : decodeTableWord 16 0x8AB4 = some (.addReg 10 11) ∧ decodeTableWord 16 0x5121 = none := by
  decide

/-- The bytes of two instructions in a row: the first, and the rest (R60, P1). -/
theorem test_decodeBytes : decodeBytes [0x6A, 0x05, 0x6B] = .ok (.setImm 10 5, [0x6B]) := rfl

/-- One byte is no instruction. -/
theorem test_decodeBytes_short : decodeBytes [0x6A] = .error .tooFewBytes := rfl

/-! ## Fetch and step -/

/-- DF2: the last fetchable address. -/
theorem test_fetch_last : after (step (start (atPc 0xFFE) 0x6007)) (fun s => (s.reg 0, s.pc)) = some (7, 0x1000) := by
  decide

/-- DF4: a fetch at 0xFFF halts, PC unchanged. -/
theorem test_fetch_pastEnd :
    after (step (atPc 0xFFF State.reset)) (fun s => (s.pc, s.halt)) = some (0xFFF, some (.fetchBounds 0xFFF)) := by decide

/-- DF5: an odd PC fetches across two words, and the unknown word is stepped over. -/
theorem test_step_odd :
    after (step (atPc 0x201 (poke 0x201 0x05 (poke 0x202 0x6B State.reset)))) id =
      some (atPc 0x203 (poke 0x201 0x05 (poke 0x202 0x6B State.reset))) ∧
    stepResult (atPc 0x201 (poke 0x201 0x05 (poke 0x202 0x6B State.reset))) = .unknown 0x056B 0x201 := by decide

/-- DF7: a halted machine is frozen. -/
theorem test_halted_frozen :
    runTrace [.step, .tick, .setKey 3 true] { State.reset with halt := some (.fetchBounds 0xFFF), dt := 5 } =
      { State.reset with halt := some (.fetchBounds 0xFFF), dt := 5 } := by decide

/-! ## Control transfer -/

/-- DF1. -/
theorem test_jump : after (step (start id 0x1234)) (·.pc) = some 0x234 := by decide

/-- DC2: the pushed address is p + 2. -/
theorem test_call :
    after (step (start (atPc 0x204) 0x2210)) (fun s => (s.stack.get 0, s.sp, s.pc)) = some (0x206, 1, 0x210) := by decide

/-- DC4, its last step: the seventeenth call overflows. -/
theorem test_call_overflow :
    after (step (start (fun s => { s with sp := 16 }) 0x2200)) (fun s => (s.sp, s.pc, s.halt)) =
      some (16, 0x202, some .stackOverflow) := by decide

/-- DC3: the entry is not erased. -/
theorem test_ret :
    after (step (start (fun s => { s with sp := 1, stack := s.stack.set 0 0x206, pc := 0x212 }) 0x00EE))
      (fun s => (s.sp, s.pc, s.stack.get 0)) = some (0, 0x206, 0x206) := by decide

/-- DC5. -/
theorem test_ret_underflow :
    after (step (start id 0x00EE)) (fun s => (s.sp, s.pc, s.halt)) = some (0, 0x202, some .stackUnderflow) := by decide

/-- DC6 and DC7. -/
theorem test_skipEqImm :
    after (step (start (·.setReg 3 0x2A) 0x332A)) (·.pc) = some 0x204 ∧
    after (step (start (·.setReg 3 0x2B) 0x332A)) (·.pc) = some 0x202 := by decide

/-- DC8 and DC9. -/
theorem test_skipNeImm :
    after (step (start (·.setReg 3 0x2A) 0x432A)) (·.pc) = some 0x202 ∧
    after (step (start id 0x432A)) (·.pc) = some 0x204 := by decide

/-- DC10 and DC11. -/
theorem test_skipEqReg :
    after (step (start (fun s => (s.setReg 1 7).setReg 2 7) 0x5120)) (·.pc) = some 0x204 ∧
    after (step (start (fun s => (s.setReg 1 7).setReg 2 8) 0x5120)) (·.pc) = some 0x202 := by decide

/-- DC13 and DC14. -/
theorem test_skipNeReg :
    after (step (start (fun s => (s.setReg 1 7).setReg 2 8) 0x9120)) (·.pc) = some 0x204 ∧
    after (step (start (·.setReg 3 9) 0x9330)) (·.pc) = some 0x202 := by decide

/-- DC16 and DC17: the quirk selects the register. -/
theorem test_jumpOffset_quirk :
    after (step (start (fun s => (s.setReg 0 0x04).setReg 3 0x10) 0xB300)) (·.pc) = some 0x304 ∧
    after (step (start (fun s => { (s.setReg 0 0x04).setReg 3 0x10 with cfg := ⟨false, true⟩ }) 0xB300)) (·.pc) =
      some 0x310 := by decide

/-- DC18: the sum is not masked to 12 bits. -/
theorem test_jumpOffset_wide : after (step (start (·.setReg 0 0xFF) 0xBFFF)) (·.pc) = some 0x10FE := by decide

/-! ## Arithmetic and logic -/

/-- DA1: VF is an ordinary destination. -/
theorem test_setImm : after (step (start id 0x6FAA)) (·.reg 15) = some 0xAA := by decide

/-- DA4: the sum wraps and no carry is recorded. -/
theorem test_addImm : after (step (start (·.setReg 15 0xFF) 0x7F02)) (·.reg 15) = some 0x01 := by decide

/-- DA5. -/
theorem test_copy : after (step (start (·.setReg 1 0x3C) 0x8010)) (·.reg 0) = some 0x3C := by decide

/-- V0 = 0xF0, V1 = 0x3C, VF = 0x07, as DA6 to DA8 start. -/
def logicStart (s : State) : State := ((s.setReg 0 0xF0).setReg 1 0x3C).setReg 15 7

/-- DA6: VF is not touched. -/
theorem test_or : after (step (start logicStart 0x8011)) (fun s => (s.reg 0, s.reg 15)) = some (0xFC, 7) := by decide

/-- DA7. -/
theorem test_and : after (step (start logicStart 0x8012)) (·.reg 0) = some 0x30 := by decide

/-- DA8. -/
theorem test_xor : after (step (start logicStart 0x8013)) (·.reg 0) = some 0xCC := by decide

/-- DA10. -/
theorem test_addReg :
    after (step (start (fun s => (s.setReg 0 0x80).setReg 1 0x80) 0x8014)) (fun s => (s.reg 0, s.reg 15)) =
      some (0, 1) := by decide

/-- DA12 and DA13: with x = 15 the carry is written last. -/
theorem test_addReg_flag :
    after (step (start (fun s => (s.setReg 15 0xFF).setReg 1 1) 0x8F14)) (·.reg 15) = some 1 ∧
    after (step (start (fun s => (s.setReg 15 0x01).setReg 1 1) 0x8F14)) (·.reg 15) = some 0 := by decide

/-- DA16 and DA17: equal operands do not borrow. -/
theorem test_sub :
    after (step (start (fun s => (s.setReg 0 0x33).setReg 1 0x33) 0x8015)) (fun s => (s.reg 0, s.reg 15)) =
      some (0, 1) ∧
    after (step (start (·.setReg 1 1) 0x8015)) (fun s => (s.reg 0, s.reg 15)) = some (0xFF, 0) := by decide

/-- DA18. -/
theorem test_sub_flag :
    after (step (start (fun s => (s.setReg 15 3).setReg 1 5) 0x8F15)) (·.reg 15) = some 0 := by decide

/-- DA19 and DA20. -/
theorem test_subn :
    after (step (start (fun s => (s.setReg 0 2).setReg 1 5) 0x8017)) (fun s => (s.reg 0, s.reg 15)) = some (3, 1) ∧
    after (step (start (fun s => (s.setReg 0 5).setReg 1 2) 0x8017)) (fun s => (s.reg 0, s.reg 15)) =
      some (0xFD, 0) := by decide

/-- DA21 and DA22: the quirk shifts VY. -/
theorem test_shr_quirk :
    after (step (start (fun s => (s.setReg 0 5).setReg 1 0xFF) 0x8016)) (fun s => (s.reg 0, s.reg 15)) = some (2, 1) ∧
    after (step (start (fun s => { (s.setReg 0 5).setReg 1 0xFF with cfg := ⟨true, false⟩ }) 0x8016))
      (fun s => (s.reg 0, s.reg 15, s.reg 1)) = some (0x7F, 1, 0xFF) := by decide

/-- DA24 and DA25. -/
theorem test_shr_flag :
    after (step (start (·.setReg 15 3) 0x8F06)) (·.reg 15) = some 0 ∧
    after (step (start (fun s => { (s.setReg 0 9).setReg 15 3 with cfg := ⟨true, false⟩ }) 0x80F6))
      (fun s => (s.reg 0, s.reg 15)) = some (1, 1) := by decide

/-- DA26 and DA27. -/
theorem test_shl :
    after (step (start (·.setReg 0 0x81) 0x801E)) (fun s => (s.reg 0, s.reg 15)) = some (2, 1) ∧
    after (step (start (·.setReg 0 0x7F) 0x801E)) (fun s => (s.reg 0, s.reg 15)) = some (0xFE, 0) := by decide

/-- DA29. -/
theorem test_shl_flag : after (step (start (·.setReg 15 0x80) 0x8F0E)) (·.reg 15) = some 2 := by decide

/-- DA31, for every byte drawn: the draw is masked, and one byte is consumed. -/
theorem test_random : after (step (start id 0xC30F)) (fun s => (s.reg 3, s.draws)) = some (Config.randByte 0 &&& 0x0F, 1) :=
  rfl

/-- DA32: with mask 0 the result is 0 whatever byte is drawn. -/
theorem test_random_zeroMask : after (step (start (·.setReg 3 9) 0xC300)) (·.reg 3) = some 0 :=
  (rfl : _ = some (Config.randByte 0 &&& 0)).trans (congrArg some (by simp))

/-! ## Index register, loads and stores -/

/-- DM1. -/
theorem test_loadIndex : after (step (start (·.setI 0xFFFF) 0xAFFF)) (·.i) = some 0x0FFF := by decide

/-- DM2 and DM3: VF is written on every execution, and the flag is the 16-bit overflow, not 12-bit. -/
theorem test_addIndex :
    after (step (start (fun s => ((s.setI 0x300).setReg 2 0x10).setReg 15 7) 0xF21E)) (fun s => (s.i, s.reg 15)) =
      some (0x310, 0) ∧
    after (step (start (fun s => (s.setI 0xFFF).setReg 0 1) 0xF01E)) (fun s => (s.i, s.reg 15)) = some (0x1000, 0) := by
  decide

/-- DM4 and DM6. -/
theorem test_addIndex_wrap :
    after (step (start (fun s => (s.setI 0xFFFF).setReg 0 1) 0xF01E)) (fun s => (s.i, s.reg 15)) = some (0, 1) ∧
    after (step (start (fun s => (s.setI 0x100).setReg 15 0x20) 0xFF1E)) (fun s => (s.i, s.reg 15)) =
      some (0x120, 0) := by decide

/-- DM8 and DM10: neither a mask nor an 8-bit wrap. -/
theorem test_fontAddress :
    after (step (start (·.setReg 4 0x0F) 0xF429)) (·.i) = some 0x09B ∧
    after (step (start (·.setReg 4 0xFF) 0xF429)) (·.i) = some 0x54B := by decide

/-- DM11: 254, ones first. -/
theorem test_storeBcd :
    after (step (start (fun s => (s.setI 0x300).setReg 0 0xFE) 0xF033))
      (fun s => [0x300, 0x301, 0x302].map (Memory.read s.mem)) = some [4, 5, 2] := by decide

/-- DM15: the digits that fit are written, then the fault. -/
theorem test_storeBcd_pastEnd :
    after (step (start (fun s => (s.setI 0xFFE).setReg 0 0x7B) 0xF033))
      (fun s => ([0xFFE, 0xFFF].map (Memory.read s.mem), s.halt, s.pc)) =
      some ([3, 2], some (.dataBounds 0x1000), 0x202) := by decide

/-- DM16: V0 to V2 and no more; I is kept. -/
theorem test_storeRegs :
    after (step (start (fun s => poke 0x403 0x99 ((((s.setI 0x400).setReg 0 0x11).setReg 1 0x22).setReg 2 0x33)) 0xF255))
      (fun s => ([0x400, 0x401, 0x402, 0x403].map (Memory.read s.mem), s.i)) =
      some ([0x11, 0x22, 0x33, 0x99], 0x400) := by decide

/-- DM22: no alias to low memory. -/
theorem test_storeRegs_noAlias :
    after (step (start (·.setI 0xFFFF) 0xF055)) (fun s => (s.halt, s.mem)) =
      some (some (.dataBounds 0xFFFF), (start (·.setI 0xFFFF) 0xF055).mem) := by decide

/-- DM19: V3 is not loaded. -/
theorem test_loadRegs :
    after (step (start (fun s => poke 0x300 4 (poke 0x301 5 (poke 0x302 2 ((s.setI 0x300).setReg 3 0x77)))) 0xF265))
      (fun s => (s.reg 0, s.reg 1, s.reg 2, s.reg 3, s.i)) = some (4, 5, 2, 0x77, 0x300) := by decide

/-- DM20: V0 is loaded, then the fault. -/
theorem test_loadRegs_pastEnd :
    after (step (start (fun s => poke 0xFFF 0x9C ((s.setI 0xFFF).setReg 1 0x77)) 0xF165))
      (fun s => (s.reg 0, s.reg 1, s.halt)) = some (0x9C, 0x77, some (.dataBounds 0x1000)) := by decide

/-! ## Display -/

/-- The (row, column) pairs of the lit cells among some rows. -/
def litIn (rows : List (Fin 32)) (s : State) : List (Fin 32 × Nat) :=
  rows.flatMap fun r => ((List.finRange 64).filter (s.cell r ·)).map fun c => (r, c.val)

/-- DR3: clipped at the bottom edge, nothing wraps to row 0. -/
theorem test_draw_clipBottom :
    after (step (start (fun s => (s.setI 0x050).setReg 1 30) 0xD015)) (fun s => (litIn [30, 31, 0] s, s.reg 15)) =
      some ([(30, 0), (30, 1), (30, 2), (30, 3), (31, 0), (31, 3)], 0) := by decide

/-- DR14: bit 7 is leftmost; one collision, one cell newly lit. -/
theorem test_draw_collision :
    after (step (start (fun s => poke 0x300 0x18 ((((s.setI 0x300).setReg 0 8).setReg 1 2).setCell 2 11 true)) 0xD011))
      (fun s => (litIn [2] s, s.reg 15)) = some ([(2, 12)], 1) := by decide

/-- DR2 and DR4: clipped at the right edge; the origin wraps. -/
theorem test_draw_right :
    after (step (start (fun s => poke 0x300 0xFF ((s.setI 0x300).setReg 0 62)) 0xD011)) (litIn [0, 1]) =
      some [(0, 62), (0, 63)] ∧
    after (step (start (fun s => poke 0x300 0x80 (((s.setI 0x300).setReg 0 0xFF).setReg 1 0xFF)) 0xD011))
      (litIn [31]) = some [(31, 63)] := by decide

/-- DR9: the origin is read before VF is cleared. -/
theorem test_draw_originVF :
    after (step (start (fun s => poke 0x300 0x80 ((s.setI 0x300).setReg 15 5)) 0xDF11))
      (fun s => (litIn [0] s, s.reg 15)) = some ([(0, 5)], 0) := by decide

/-- DR10: the rows that could be read are drawn, then the fault. -/
theorem test_draw_pastEnd :
    after (step (start (fun s => poke 0xFFE 0xC0 (poke 0xFFF 0x81 (s.setI 0xFFE))) 0xD013))
      (fun s => (litIn [0, 1, 2] s, s.halt)) =
      some ([(0, 0), (0, 1), (1, 0), (1, 7)], some (.dataBounds 0x1000)) := by decide

/-- DR13. -/
theorem test_clearScreen :
    after (step (start (fun s => (s.setCell 2 11 true).setReg 15 7) 0x00E0)) (fun s => (litIn [2] s, s.reg 15)) =
      some ([], 7) := by decide

/-! ## Keys and timers -/

/-- Key 10 in V5, at 0x220. -/
def keyStart (down : Bool) (s : State) : State := (setKey 10 down (s.setReg 5 0x0A)).setPc 0x220

/-- DK1 and DK2. -/
theorem test_keyPressed :
    after (step (start (keyStart true) 0xE59E)) (·.pc) = some 0x224 ∧
    after (step (start (keyStart false) 0xE59E)) (·.pc) = some 0x222 := by decide

/-- DK3. -/
theorem test_keyNotPressed : after (step (start (keyStart false) 0xE5A1)) (·.pc) = some 0x224 := by decide

/-- DK4 and DK5: a number above 15 is not masked. -/
theorem test_key_bounds :
    after (step (start (·.setReg 5 0x10) 0xE59E)) (fun s => (s.halt, s.pc)) = some (some (.keyBounds 16), 0x202) ∧
    after (step (start (·.setReg 5 0xFF) 0xE5A1)) (·.halt) = some (some (.keyBounds 255)) := by decide

/-- DK6: the lowest true line. -/
theorem test_waitKey :
    after (step (start (fun s => (setKey 7 true (setKey 3 true s)).setPc 0x20A) 0xF20A)) (fun s => (s.reg 2, s.pc)) =
      some (3, 0x20C) := by decide

/-- DK7: no line true, the same instruction again. -/
theorem test_waitKey_none :
    after (step (start (fun s => (s.setReg 2 0x55).setPc 0x20A) 0xF20A)) (fun s => (s.reg 2, s.pc)) =
      some (0x55, 0x20A) := by decide

/-- DK10. -/
theorem test_getDelay :
    after (step (start (fun s => { s with dt := 0x2C }) 0xF307)) (fun s => (s.reg 3, s.dt)) = some (0x2C, 0x2C) := by
  decide

/-- DK11. -/
theorem test_setDelay : after (step (start (·.setReg 0 3) 0xF015)) (fun s => (s.dt, s.st)) = some (3, 0) := by decide

/-- DK12. -/
theorem test_setSound : after (step (start (·.setReg 1 16) 0xF118)) (fun s => (s.dt, s.st)) = some (0, 16) := by decide

/-- DK13 and S7: three and five ticks. -/
theorem test_ticks :
    (fun s : State => (s.dt, s.st)) (runTrace [.tick, .tick] { State.reset with dt := 3, st := 1 }) = (1, 0) ∧
    (runTrace [.tick, .tick, .tick, .tick, .tick] { State.reset with dt := 3, st := 1 }) = State.reset := by decide

/-- DK17. -/
theorem test_setKey : (setKey 4 true State.reset).key.get 4 = true ∧
    setKey 4 false (setKey 4 true State.reset) = State.reset := by decide

/-! ## Reset and load -/

/-- DI1 and DI2. -/
theorem test_construct :
    (match construct [0x6A, 0x05, 0x6B] true false with
      | .ok s => [0x200, 0x201, 0x202, 0x203, 0x04F, 0x050, 0x051, 0x09B, 0x09F, 0x0A0].map (Memory.read s.mem)
      | .error _ => []) = [0x6A, 0x05, 0x6B, 0, 0, 0xF0, 0x90, 0xF0, 0x80, 0] := by decide

/-- R5, R31: another glyph table goes to 0x050 to 0x09F and nowhere else. -/
theorem test_construct_glyphs :
    (match construct [] false false (Vector.replicate 80 0xA5) with
      | .ok s => [0x04F, 0x050, 0x09F, 0x0A0].map (Memory.read s.mem)
      | .error _ => []) = [0, 0xA5, 0xA5, 0] := by decide

/-- DI4: a program of 3585 bytes is refused, with code 7 of R200. -/
theorem test_construct_tooLong :
    construct (List.replicate 3585 0) false false = .error .programTooLong ∧ LoadError.programTooLong.code = 7 :=
  ⟨if_pos (by rw [List.length_replicate]; decide), rfl⟩

/-- The codes of R200. -/
theorem test_codes :
    [StepResult.ok, .fatal (.fetchBounds 0), .fatal (.dataBounds 0), .fatal (.keyBounds 0), .fatal .stackOverflow,
      .fatal .stackUnderflow, .unknown 0 0].map StepResult.code =
    [none, some 1, some 2, some 3, some 4, some 5, some 6] := by decide

/-- R32 and R216: element 2 * 64 + 11 of the buffer read out is the cell of row 2, column 11. -/
theorem test_readDisplay :
    (readDisplay (State.reset.setCell 2 11 true))[139]? = some true ∧
    (readDisplay (State.reset.setCell 2 11 true))[138]? = some false := ⟨rfl, rfl⟩

/-! ## Witnesses: states and operands that meet the hypotheses of each obligation -/

/-- SP = 16: the stack is full. -/
def fullStack (s : State) : State := { s with sp := 16 }

theorem witness_DecodeEncodeRoundTrip : (Instr.jumpOffset 2 0x2F0).WellFormed ∧ (Instr.draw 15 15 15).WellFormed := by
  decide

theorem witness_DecodedWordEncodesBack : decode 0xB2F0 = .ok (.jumpOffset 2 0x2F0) := rfl

/-- A word that a row selects, and one that no row selects. -/
theorem witness_DecodeFollowsOpcodeTable :
    (∃ r ∈ opRows, r.selects 0xFF65 = true) ∧ ∀ r ∈ opRows, r.selects 0xFF66 = false := by decide

/-- The two sides of the bound. -/
theorem witness_FetchIsBigEndianAndAdvances :
    (atPc 0xFFF State.reset).pc.toNat + 1 > 4095 ∧ (atPc 0xFFE State.reset).pc.toNat + 1 ≤ 4095 := by decide

theorem witness_StepRunsDecodedInstruction :
    (start (atPc 0xFFE) 0x6007).halt = none ∧ (start (atPc 0xFFE) 0x6007).pc.toNat + 1 ≤ 4095 ∧
    decode (Word.ofBytes (Memory.read (start (atPc 0xFFE) 0x6007).mem 0xFFE)
      (Memory.read (start (atPc 0xFFE) 0x6007).mem 0xFFF)) = .ok (.setImm 0 7) := ⟨rfl, by decide, rfl⟩

theorem witness_UnknownWordSteppedOver :
    State.reset.halt = none ∧ State.reset.pc.toNat + 1 ≤ 4095 ∧
    (0x0000 : Word) = Word.ofBytes (Memory.read State.reset.mem 0x200) (Memory.read State.reset.mem 0x201) ∧
    decode 0x0000 = .error (.unknownWord 0x0000) := ⟨rfl, by decide, by decide, rfl⟩

theorem witness_FetchPastEndHalts :
    (atPc 0xFFF State.reset).halt = none ∧ 4095 ≤ (atPc 0xFFF State.reset).pc.toNat := by decide

theorem witness_HaltedMachineFrozen :
    ({ State.reset with halt := some .stackOverflow } : State).halt = some .stackOverflow := rfl

theorem witness_EveryInstructionHasNextState : State.reset.halt = none := rfl

/-- The stack clauses. -/
theorem witness_OnlyListedFaultsHalt_stack :
    (fullStack State.reset).halt = none ∧
    after (exec (.call 0x300) (fullStack State.reset)) (·.halt) = some (some .stackOverflow) ∧
    after (exec .ret State.reset) (·.halt) = some (some .stackUnderflow) := by decide

/-- The key clause, at key number 16. -/
theorem witness_OnlyListedFaultsHalt_key :
    after (exec (.keyPressed 5) (State.reset.setReg 5 16)) (·.halt) = some (some (.keyBounds 16)) ∧
    after (exec (.keyNotPressed 5) (State.reset.setReg 5 16)) (·.halt) = some (some (.keyBounds 16)) := by decide

/-- The data clause, at address 4096, for its four instructions. -/
theorem witness_OnlyListedFaultsHalt_data :
    after (exec (.draw 0 0 1) (State.reset.setI 4096)) (·.halt) = some (some (.dataBounds 4096)) ∧
    after (exec (.storeBcd 0) (State.reset.setI 4094)) (·.halt) = some (some (.dataBounds 4096)) ∧
    after (exec (.storeRegs 15) (State.reset.setI 4081)) (·.halt) = some (some (.dataBounds 4096)) ∧
    after (exec (.loadRegs 15) (State.reset.setI 4081)) (·.halt) = some (some (.dataBounds 4096)) := by decide

/-- Each of the three reports. -/
theorem witness_ReportMatchesNextState :
    (stepResult (start id 0x1234) = .ok ∧ stepResult State.reset = .unknown 0 0x200 ∧
      stepResult (start id 0x00EE) = .fatal .stackUnderflow) ∧
    (after (step (start id 0x1234)) (·.halt) = some none ∧ after (step State.reset) (·.halt) = some none ∧
      after (step (start id 0x00EE)) (·.halt) = some (some .stackUnderflow)) := by decide

theorem witness_PlacedWordRunsNext : Memory.wf State.reset.mem ∧ decodeTableWord 16 0x8AB4 = some (.addReg 10 11) := by
  decide

/-- PC at the bound 4350 that jump-offset reaches, a stack entry of 4096. -/
theorem witness_InvariantKeptByStep :
    State.Inv { State.reset with pc := 4350, stack := Vector.replicate 16 4096 } ∧
    after (step { State.reset with pc := 4350, stack := Vector.replicate 16 4096 }) (·.pc) = some 4350 ∧
    State.Inv (start (·.setReg 0 0xFF) 0xBFFF) ∧
    after (step (start (·.setReg 0 0xFF) 0xBFFF)) (·.pc) = some 4350 :=
  ⟨⟨by decide, by decide, by decide⟩, by decide, ⟨by decide, by decide, by decide⟩, by decide⟩

theorem witness_ReachableStatesMeetInvariant : construct [] false false = .ok State.reset := by
  rw [construct, Memory.load_default]; rfl

/-- The two sides of the bound. -/
theorem witness_CheckedAccessLaws : Memory.wf State.reset.mem ∧ 4096 > 4095 ∧ 4095 ≤ 4095 := by decide

/-- A memory of one cell, and that cell written back to what it reads as at reset. -/
theorem witness_CanonicalMemoryIsExtensional :
    Memory.wf [(0x050, 0xAB)] ∧ Memory.wf (Memory.write [(0x050, 0xAB)] 0x050 0xF0) ∧ Memory.wf [] ∧
    ∀ a, Memory.read (Memory.write [(0x050, 0xAB)] 0x050 0xF0) a = Memory.read [] a :=
  ⟨by decide, by decide, by decide, fun _ => rfl⟩

theorem witness_StoredWordIsFetchedNext :
    Memory.wf (atPc 4094 (State.reset.setI 4094)).mem ∧
    (atPc 4094 (State.reset.setI 4094)).i = (atPc 4094 (State.reset.setI 4094)).pc ∧
    (atPc 4094 (State.reset.setI 4094)).i.toNat + 1 ≤ 4095 ∧
    (after (exec (.storeRegs 1) (atPc 4094 (State.reset.setI 4094))) (·.halt)) = some none := by decide

/-- The two clauses at their boundary. -/
theorem witness_CallPushesOrOverflows :
    ({ State.reset with sp := 15 } : State).sp.val < 16 ∧ (fullStack State.reset).sp.val = 16 := by decide

/-- The two clauses at their boundary, and the top of the stack. -/
theorem witness_ReturnPopsOrUnderflows :
    (0 : Fin 16).val + 1 = ({ State.reset with sp := 1 } : State).sp.val ∧
    (15 : Fin 16).val + 1 = (fullStack State.reset).sp.val ∧ State.reset.sp.val = 0 := by decide

theorem witness_CallReturnRoundTrip :
    ({ State.reset with sp := 15 } : State).halt = none ∧
    (after (exec (.call 0x300) { State.reset with sp := 15 }) (·.halt)) = some none := by decide

/-- A next state without a fault for each shape of PC rule. -/
theorem witness_PcAfterInstruction :
    State.reset.halt = none ∧
    ([.jump 0xFFF, .call 0xFFF, .jumpOffset 15 0xFFF, .skipEqImm 0 0, .skipNeImm 0 0, .skipEqReg 0 1, .skipNeReg 0 1,
      .keyPressed 0, .keyNotPressed 0, .waitKey 0, .clearScreen] : List Instr).all
        (fun i => after (exec i State.reset) (·.halt) == some none) = true ∧
    after (exec .ret { State.reset with sp := 1 }) (·.halt) = some none := by decide

/-- Both settings of the quirk. -/
theorem witness_ShiftsSetShiftedOutBit :
    5 = (if (State.reset.setReg 0 5).cfg.shift = true then (State.reset.setReg 0 5).reg 1
      else (State.reset.setReg 0 5).reg 0).toNat := by decide

theorem witness_StoreBcdWritesDigits :
    Memory.wf ((State.reset.setI 4093).setReg 0 255).mem ∧ ((State.reset.setI 4093).setReg 0 255).dataAddr 2 ≤ 4095 ∧
    255 = (((State.reset.setI 4093).setReg 0 255).reg 0).toNat := by decide

theorem witness_StoreRegsWritesBlock :
    Memory.wf (State.reset.setI 4080).mem ∧ (State.reset.setI 4080).dataAddr (15 : RegId).val ≤ 4095 := by decide

theorem witness_LoadRegsReadsBlock : (State.reset.setI 4080).dataAddr (15 : RegId).val ≤ 4095 := by decide

/-- Nothing fits (k = 0), and two bytes fit (k = 2); both clauses. -/
theorem witness_StoresPastEndKeepEarlierBytes :
    (Memory.wf (State.reset.setI 4096).mem ∧ 4095 < (State.reset.setI 4096).dataAddr 0) ∧
    (Memory.wf (State.reset.setI 4094).mem ∧ 4095 < (State.reset.setI 4094).dataAddr 2 ∧
      (∀ j < 2, (State.reset.setI 4094).dataAddr j ≤ 4095) ∧ 2 ≤ (2 : RegId).val ∧ 2 < 3) := by decide

theorem witness_LoadPastEndKeepsEarlierRegisters :
    (1 : RegId).val ≤ (1 : RegId).val ∧ 4095 < (State.reset.setI 4095).dataAddr (1 : RegId).val ∧
    (∀ j < (1 : RegId).val, (State.reset.setI 4095).dataAddr j ≤ 4095) := by decide

/-- DR11: the clipped row needs no byte; and DR6: no rows at all, I past the end of memory. -/
theorem witness_DrawTogglesSpriteCells :
    SpriteInMemory (State.reset.setI 4095) 31 2 ∧ SpriteInMemory (State.reset.setI 0xFFFF) 0 0 := by
  unfold SpriteInMemory; decide

/-- DR10. -/
theorem witness_DrawPastEndKeepsEarlierRows :
    2 < (3 : Fin 16).val ∧ (State.reset.setI 4094).originRow 0 + 2 < 32 ∧ 4095 < (State.reset.setI 4094).dataAddr 2 ∧
    SpriteInMemory (State.reset.setI 4094) ((State.reset.setI 4094).originRow 0) 2 := by
  unfold SpriteInMemory; decide

theorem witness_DrawTwiceRestoresDisplay :
    (0 : RegId) ≠ regF ∧ (1 : RegId) ≠ regF ∧
    SpriteInMemory (State.reset.setI 0x050) ((State.reset.setI 0x050).originRow 1) (5 : Fin 16).val := by
  unfold SpriteInMemory; decide

/-- Key numbers 15 and 16. -/
theorem witness_KeySkipsTestLine :
    ((State.reset.setReg 5 15).reg 5).toNat = (15 : Fin 16).val ∧ 15 < ((State.reset.setReg 5 16).reg 5).toNat := by
  decide

/-- Only the highest line true, and none. -/
theorem witness_WaitKeyTakesLowestLine :
    ((setKey 15 true State.reset).key.get 15 = true ∧ ∀ j < (15 : Fin 16), (setKey 15 true State.reset).key.get j = false) ∧
    ∀ k : Fin 16, State.reset.key.get k = false := by decide

/-- Both clauses. -/
theorem witness_TickCountsBothTimersDown :
    State.reset.halt = none ∧ ({ State.reset with halt := some .stackOverflow } : State).halt ≠ none := by decide

theorem witness_TimersAfterManyTicks : ({ State.reset with dt := 3, st := 255 } : State).halt = none := rfl

/-- Both clauses. -/
theorem witness_SetKeyChangesOneLine :
    (setKey 15 true State.reset).halt = none ∧ (fullStack { State.reset with halt := some .stackOverflow }).halt ≠ none := by
  decide

/-- A jump to itself at the last fetchable address. -/
theorem witness_IdleFrameOnlyTicks :
    (start (atPc 0xFFE) 0x1FFE).halt = none ∧ (start (atPc 0xFFE) 0x1FFE).pc.toNat < 4095 ∧
    (start (atPc 0xFFE) 0x1FFE).wordAtPc.toNat = 0x1000 + (start (atPc 0xFFE) 0x1FFE).pc.toNat := by decide

/-- A store at the top of memory, and an instruction that is no store. -/
theorem witness_OnlyStoresWriteMemory :
    Memory.wf (State.reset.setI 4080).mem ∧
    after (exec (.storeRegs 15) (State.reset.setI 4080)) (·.halt) = some none ∧
    after (exec (.copy 0 1) State.reset) (·.halt) = some none := by decide

theorem witness_OnlyIndexInstructionsWriteIndex :
    after (exec (.loadIndex 0xFFF) State.reset) (·.i) = some 0xFFF ∧ (0xFFF : Addr) ≠ State.reset.i := by decide

theorem witness_FlagRegisterWriters :
    after (exec (.sub 0 1) State.reset) (·.reg regF) = some 1 ∧ (1 : Byte) ≠ State.reset.reg regF := by decide

theorem witness_NoInstructionWritesKeysOrSwitches : after (exec .clearScreen State.reset) (·.halt) = some none := by
  decide

/-- A change of each field that a clause is about. -/
theorem witness_WritersOfOtherState :
    after (exec (.call 0x300) State.reset) (fun t => (t.sp, t.stack.get 0)) = some (1, 0x200) ∧
    after (exec (.setDelay 0) (State.reset.setReg 0 9)) (·.dt) = some 9 ∧
    after (exec (.setSound 0) (State.reset.setReg 0 9)) (·.st) = some 9 ∧
    after (exec (.draw 0 0 1) (State.reset.setI 0x050)) (·.cell 0 0) = some true ∧
    after (exec (.random 0 0) State.reset) (·.draws) = some 1 := by decide

/-- The longest program that fits, and the shortest that does not. The clause on the default table is met by it. -/
theorem witness_ConstructMeetsResetTable :
    (List.replicate 3584 (0x7E : Byte)).length ≤ 3584 ∧ 3584 < (List.replicate 3585 (0x7E : Byte)).length := by
  rw [List.length_replicate, List.length_replicate]; decide

theorem witness_ResetIsEmptyConstruction : construct [] false false = .ok State.reset := by
  rw [construct, Memory.load_default]; rfl

end Sys2Proof.Tests
end

section
/-! Proofs: the statements about fetch and step. -/

namespace Sys2Proof.Machine

/-- The word at PC, with the byte at PC as its high byte (R42, R81). -/
theorem State.wordAtPc_toNat (s : State) :
    s.wordAtPc.toNat = (Memory.read s.mem s.pc.toNat).toNat <<< 8 ||| (Memory.read s.mem (s.pc.toNat + 1)).toNat :=
  BitVec.toNat_append _ _

/-- A step that can fetch a word which decodes is the execution of its instruction, from PC already past the word. -/
theorem step_of_decode_ok {s : State} {i : Instr} (hh : s.halt = none) (hp : s.pc.toNat + 1 ≤ 4095)
    (hd : decode s.wordAtPc = .ok i) : step s = exec i (s.setPc (s.pc + 2)) := by
  unfold step
  rw [hh, State.fetch_ok hp]
  dsimp only
  rw [State.attempt_ok, hd]

/-- Settles O7: the two sides of the bound are the two laws of `State.fetch`, and the word it reads is `wordAtPc`. -/
theorem fetchIsBigEndianAndAdvances : Obligations.FetchIsBigEndianAndAdvances := by
  intro s
  refine ⟨fun hp => State.fetch_error hp, fun hp => ⟨s.wordAtPc, State.fetch_ok hp, s.wordAtPc_toNat, ?_⟩⟩
  intro i hh hd
  exact step_of_decode_ok hh hp hd

end Sys2Proof.Machine
end

section
/-! Proofs: the statements about the jump to a literal and the skips that compare registers. -/

namespace Sys2Proof.Machine

/-- A literal address keeps its value when it is extended to the width of PC (R102). -/
theorem addrLit_toNat (nnn : BitVec 12) : (addrLit nnn).toNat = nnn.toNat :=
  BitVec.toNat_setWidth_of_le (by decide)

/-- A skip changes PC alone, on either side of its condition (R108). -/
theorem State.skipIf_eq (s : State) (c : Bool) : s.skipIf c = { s with pc := if c then s.pc + 2 else s.pc } := by
  cases c <;> rfl

/-- A skip on equal bytes. -/
theorem State.skipIf_beq (s : State) (a b : Byte) :
    s.skipIf (a == b) = { s with pc := if a = b then s.pc + 2 else s.pc } := by
  rw [State.skipIf_eq]
  simp only [beq_iff_eq]

/-- A skip on different bytes, with its condition stated as their equality. -/
theorem State.skipIf_bne (s : State) (a b : Byte) :
    s.skipIf (a != b) = { s with pc := if a = b then s.pc else s.pc + 2 } := by
  rw [State.skipIf_eq]
  simp only [bne_iff_ne, ite_not]

theorem exec_jump (nnn : BitVec 12) (s : State) : exec (.jump nnn) s = .next (s.setPc (addrLit nnn)) := rfl

theorem exec_skipEqImm (x : RegId) (nn : Byte) (s : State) :
    exec (.skipEqImm x nn) s = .next (s.skipIf (s.reg x == nn)) := rfl

theorem exec_skipNeImm (x : RegId) (nn : Byte) (s : State) :
    exec (.skipNeImm x nn) s = .next (s.skipIf (s.reg x != nn)) := rfl

theorem exec_skipEqReg (x y : RegId) (s : State) :
    exec (.skipEqReg x y) s = .next (s.skipIf (s.reg x == s.reg y)) := rfl

theorem exec_skipNeReg (x y : RegId) (s : State) :
    exec (.skipNeReg x y) s = .next (s.skipIf (s.reg x != s.reg y)) := rfl

/-- Settles O22: the new PC is the literal, extended without a change of value. -/
theorem jumpGoesToLiteral : Obligations.JumpGoesToLiteral :=
  fun nnn s => ⟨addrLit nnn, exec_jump nnn s, addrLit_toNat nnn⟩

/-- Settles O26: each skip is `State.skipIf` on its comparison, so what a skip does on equal and on different bytes
gives all four. -/
theorem skipsCompareRegisters : Obligations.SkipsCompareRegisters := by
  intro x y nn s
  refine ⟨?eqImm, ?neImm, ?eqReg, ?neReg⟩
  case eqImm => rw [exec_skipEqImm, State.skipIf_beq]
  case neImm => rw [exec_skipNeImm, State.skipIf_bne]
  case eqReg => rw [exec_skipEqReg, State.skipIf_beq]
  case neReg => rw [exec_skipNeReg, State.skipIf_bne]

end Sys2Proof.Machine
end

section
/-! Proofs: the statements about the register load, the add of a literal, the copy and the logic instructions. -/

namespace Sys2Proof.Machine

open Sys2Proof.Certificates (RegsBecome)

/-- A write of one register: that register takes the byte, every other register and all other state is kept. -/
theorem regsBecome_setReg (s : State) (x : RegId) (b : Byte) :
    RegsBecome (.next (s.setReg x b)) s fun r => if r = x then b else s.reg r :=
  ⟨(s.setReg x b).v, rfl, fun r => s.reg_setReg x r b⟩

/-- The byte addition wraps: it is the sum modulo 256 (R122). -/
theorem byte_add_eq_ofNat_mod (a b : Byte) : a + b = BitVec.ofNat 8 ((a.toNat + b.toNat) % 256) :=
  BitVec.eq_of_toNat_eq (by simp only [BitVec.toNat_add, BitVec.toNat_ofNat]; omega)

theorem exec_setImm (x : RegId) (nn : Byte) (s : State) : exec (.setImm x nn) s = .next (s.setReg x nn) := rfl

theorem exec_addImm (x : RegId) (nn : Byte) (s : State) :
    exec (.addImm x nn) s = .next (s.setReg x (s.reg x + nn)) := rfl

theorem exec_copy (x y : RegId) (s : State) : exec (.copy x y) s = .next (s.setReg x (s.reg y)) := rfl

theorem exec_orReg (x y : RegId) (s : State) : exec (.orReg x y) s = .next (s.setReg x (s.reg x ||| s.reg y)) := rfl

theorem exec_andReg (x y : RegId) (s : State) : exec (.andReg x y) s = .next (s.setReg x (s.reg x &&& s.reg y)) := rfl

theorem exec_xorReg (x y : RegId) (s : State) : exec (.xorReg x y) s = .next (s.setReg x (s.reg x ^^^ s.reg y)) := rfl

/-- Settles O29: both are a write of VX alone, and the sum written is the byte addition, which wraps. -/
theorem setAndAddLiteral : Obligations.SetAndAddLiteral := by
  intro x nn s
  refine ⟨?set, ?add⟩
  case set => rw [exec_setImm]; exact regsBecome_setReg s x nn
  case add => rw [exec_addImm, ← byte_add_eq_ofNat_mod]; exact regsBecome_setReg s x _

/-- Settles O30: each of the four is a write of VX alone, so the rule of one register write gives them all. -/
theorem copyAndLogic : Obligations.CopyAndLogic := by
  intro x y s
  refine ⟨?copy, ?or, ?and, ?xor⟩
  case copy => rw [exec_copy]; exact regsBecome_setReg s x _
  case or => rw [exec_orReg]; exact regsBecome_setReg s x _
  case and => rw [exec_andReg]; exact regsBecome_setReg s x _
  case xor => rw [exec_xorReg]; exact regsBecome_setReg s x _

end Sys2Proof.Machine
end

section
/-! Proofs: the statement about the load of the index register. -/

namespace Sys2Proof.Machine

theorem exec_loadIndex (nnn : BitVec 12) (s : State) : exec (.loadIndex nnn) s = .next (s.setI (addrLit nnn)) := rfl

/-- Settles O35: the one write is `State.setI`, of the literal extended without a change of value. -/
theorem loadIndexTakesLiteral : Obligations.LoadIndexTakesLiteral :=
  fun nnn s => ⟨addrLit nnn, exec_loadIndex nnn s, addrLit_toNat nnn⟩

end Sys2Proof.Machine
end

section
/-! Proofs: the statement about the clear of the display. -/

namespace Sys2Proof.Machine

/-- No cell of the clear display is lit (R34, R161). -/
@[simp] theorem Display.get_get_clear (row : Fin 32) (col : Fin 64) : (Display.clear.get row).get col = false := by
  rw [Display.clear, Vector.get_replicate, Vector.get_replicate]

theorem exec_clearScreen (s : State) : exec .clearScreen s = .next { s with fb := Display.clear } := rfl

/-- Settles O43: the one write puts the clear display in place of the Display Buffer, and no cell of it is lit. -/
theorem clearScreenClearsEveryCell : Obligations.ClearScreenClearsEveryCell :=
  fun s => ⟨Display.clear, exec_clearScreen s, Display.get_get_clear⟩

end Sys2Proof.Machine
end

section
/-! Proofs: the statements about the timer instructions and the events `tick` and `set_key`. -/

namespace Sys2Proof.Machine

theorem exec_getDelay (x : RegId) (s : State) : exec (.getDelay x) s = .next (s.setReg x s.dt) := rfl

theorem exec_setDelay (x : RegId) (s : State) : exec (.setDelay x) s = .next { s with dt := s.reg x } := rfl

theorem exec_setSound (x : RegId) (s : State) : exec (.setSound x) s = .next { s with st := s.reg x } := rfl

/-- The countdown is the subtraction of natural numbers, which stops at zero (R190). -/
@[simp] theorem countdown_toNat (t : Byte) : (countdown t).toNat = t.toNat - 1 := by
  unfold countdown
  split
  · next h => rw [h]; rfl
  · next h =>
    have hpos : 1 ≤ t.toNat := Nat.pos_of_ne_zero fun e => h (BitVec.eq_of_toNat_eq e)
    exact BitVec.toNat_sub_of_le hpos

/-- On a running machine `set_key` gives its own line the new level and keeps every other line (R180). -/
theorem key_get_setKey {s : State} (k j : Fin 16) (b : Bool) (h : s.halt = none) :
    (setKey k b s).key.get j = if j = k then b else s.key.get j := by
  rw [setKey_running k b h]
  simp only [Vector.get_eq_getElem, Vector.getElem_set, Fin.ext_iff, eq_comm]

/-- Settles O49: the first is a write of VX alone, and each of the other two is one update of its timer. -/
theorem timerInstructionsMoveBytes : Obligations.TimerInstructionsMoveBytes := by
  intro x s
  refine ⟨?getDelay, exec_setDelay x s, exec_setSound x s⟩
  case getDelay => rw [exec_getDelay]; exact regsBecome_setReg s x s.dt

/-- Settles O50: a running machine counts each timer down, and a halted one is left as it is. -/
theorem tickCountsBothTimersDown : Obligations.TickCountsBothTimersDown := by
  intro s
  refine ⟨fun hrun => ?running, tick_halted⟩
  case running =>
    exact ⟨countdown s.dt, countdown s.st, tick_running hrun, countdown_toNat s.dt, countdown_toNat s.st⟩

/-- Settles O52: the new key lines are those of `setKey`, and a halted machine is left as it is. -/
theorem setKeyChangesOneLine : Obligations.SetKeyChangesOneLine := by
  intro k b s
  refine ⟨fun hrun => ⟨(setKey k b s).key, ?frame, fun j => key_get_setKey k j b hrun⟩, setKey_halted k b⟩
  case frame => rw [setKey_running k b hrun]

end Sys2Proof.Machine
end

section
/-! Proofs: the statements about the encoding and the opcode map. -/

namespace Sys2Proof

/-! ### The decoder, one equation per row (R66, R67) -/

section
variable {w : Word}

theorem Word.op_lt (w : Word) : w.op < 16 := (w.extractLsb' 12 4).isLt

theorem decodeWord_clearScreen (h : w.toNat = 0x00E0) : decodeWord w = some .clearScreen := by
  rw [BitVec.eq_of_toNat_eq (y := 0x00E0) h]; rfl
theorem decodeWord_ret (h : w.toNat = 0x00EE) : decodeWord w = some .ret := by
  rw [BitVec.eq_of_toNat_eq (y := 0x00EE) h]; rfl
theorem decodeWord_jump (h : w.op = 0x1) : decodeWord w = some (.jump w.nnn) := by simp only [decodeWord, h]
theorem decodeWord_call (h : w.op = 0x2) : decodeWord w = some (.call w.nnn) := by simp only [decodeWord, h]
theorem decodeWord_skipEqImm (h : w.op = 0x3) : decodeWord w = some (.skipEqImm w.x w.nn) := by
  simp only [decodeWord, h]
theorem decodeWord_skipNeImm (h : w.op = 0x4) : decodeWord w = some (.skipNeImm w.x w.nn) := by
  simp only [decodeWord, h]
theorem decodeWord_skipEqReg (h : w.op = 0x5) (hn : w.n.val = 0) : decodeWord w = some (.skipEqReg w.x w.y) := by
  simp only [decodeWord, h, hn, if_true]
theorem decodeWord_setImm (h : w.op = 0x6) : decodeWord w = some (.setImm w.x w.nn) := by simp only [decodeWord, h]
theorem decodeWord_addImm (h : w.op = 0x7) : decodeWord w = some (.addImm w.x w.nn) := by simp only [decodeWord, h]
theorem decodeWord_alu (h : w.op = 0x8) : decodeWord w = decodeAlu w := by simp only [decodeWord, h]
theorem decodeWord_skipNeReg (h : w.op = 0x9) (hn : w.n.val = 0) : decodeWord w = some (.skipNeReg w.x w.y) := by
  simp only [decodeWord, h, hn, if_true]
theorem decodeWord_loadIndex (h : w.op = 0xA) : decodeWord w = some (.loadIndex w.nnn) := by simp only [decodeWord, h]
theorem decodeWord_jumpOffset (h : w.op = 0xB) : decodeWord w = some (.jumpOffset w.x w.nnn) := by
  simp only [decodeWord, h]
theorem decodeWord_random (h : w.op = 0xC) : decodeWord w = some (.random w.x w.nn) := by simp only [decodeWord, h]
theorem decodeWord_draw (h : w.op = 0xD) : decodeWord w = some (.draw w.x w.y w.n) := by simp only [decodeWord, h]
theorem decodeWord_keyPressed (h : w.op = 0xE) (hn : w.nn.toNat = 0x9E) : decodeWord w = some (.keyPressed w.x) := by
  simp only [decodeWord, h, hn, if_true]
theorem decodeWord_keyNotPressed (h : w.op = 0xE) (hn : w.nn.toNat = 0xA1) :
    decodeWord w = some (.keyNotPressed w.x) := by
  simp [decodeWord, h, hn, -Word.op_eq, -Word.nn_toNat]
theorem decodeWord_misc (h : w.op = 0xF) : decodeWord w = decodeMisc w := by simp only [decodeWord, h]

theorem decodeWord_copy (h : w.op = 0x8) (hn : w.n.val = 0x0) : decodeWord w = some (.copy w.x w.y) := by
  simp only [decodeWord_alu h, decodeAlu, hn]
theorem decodeWord_orReg (h : w.op = 0x8) (hn : w.n.val = 0x1) : decodeWord w = some (.orReg w.x w.y) := by
  simp only [decodeWord_alu h, decodeAlu, hn]
theorem decodeWord_andReg (h : w.op = 0x8) (hn : w.n.val = 0x2) : decodeWord w = some (.andReg w.x w.y) := by
  simp only [decodeWord_alu h, decodeAlu, hn]
theorem decodeWord_xorReg (h : w.op = 0x8) (hn : w.n.val = 0x3) : decodeWord w = some (.xorReg w.x w.y) := by
  simp only [decodeWord_alu h, decodeAlu, hn]
theorem decodeWord_addReg (h : w.op = 0x8) (hn : w.n.val = 0x4) : decodeWord w = some (.addReg w.x w.y) := by
  simp only [decodeWord_alu h, decodeAlu, hn]
theorem decodeWord_sub (h : w.op = 0x8) (hn : w.n.val = 0x5) : decodeWord w = some (.sub w.x w.y) := by
  simp only [decodeWord_alu h, decodeAlu, hn]
theorem decodeWord_shr (h : w.op = 0x8) (hn : w.n.val = 0x6) : decodeWord w = some (.shr w.x w.y) := by
  simp only [decodeWord_alu h, decodeAlu, hn]
theorem decodeWord_subn (h : w.op = 0x8) (hn : w.n.val = 0x7) : decodeWord w = some (.subn w.x w.y) := by
  simp only [decodeWord_alu h, decodeAlu, hn]
theorem decodeWord_shl (h : w.op = 0x8) (hn : w.n.val = 0xE) : decodeWord w = some (.shl w.x w.y) := by
  simp only [decodeWord_alu h, decodeAlu, hn]

theorem decodeWord_getDelay (h : w.op = 0xF) (hn : w.nn.toNat = 0x07) : decodeWord w = some (.getDelay w.x) := by
  simp only [decodeWord_misc h, decodeMisc, hn]
theorem decodeWord_waitKey (h : w.op = 0xF) (hn : w.nn.toNat = 0x0A) : decodeWord w = some (.waitKey w.x) := by
  simp only [decodeWord_misc h, decodeMisc, hn]
theorem decodeWord_setDelay (h : w.op = 0xF) (hn : w.nn.toNat = 0x15) : decodeWord w = some (.setDelay w.x) := by
  simp only [decodeWord_misc h, decodeMisc, hn]
theorem decodeWord_setSound (h : w.op = 0xF) (hn : w.nn.toNat = 0x18) : decodeWord w = some (.setSound w.x) := by
  simp only [decodeWord_misc h, decodeMisc, hn]
theorem decodeWord_addIndex (h : w.op = 0xF) (hn : w.nn.toNat = 0x1E) : decodeWord w = some (.addIndex w.x) := by
  simp only [decodeWord_misc h, decodeMisc, hn]
theorem decodeWord_fontAddress (h : w.op = 0xF) (hn : w.nn.toNat = 0x29) : decodeWord w = some (.fontAddress w.x) := by
  simp only [decodeWord_misc h, decodeMisc, hn]
theorem decodeWord_storeBcd (h : w.op = 0xF) (hn : w.nn.toNat = 0x33) : decodeWord w = some (.storeBcd w.x) := by
  simp only [decodeWord_misc h, decodeMisc, hn]
theorem decodeWord_storeRegs (h : w.op = 0xF) (hn : w.nn.toNat = 0x55) : decodeWord w = some (.storeRegs w.x) := by
  simp only [decodeWord_misc h, decodeMisc, hn]
theorem decodeWord_loadRegs (h : w.op = 0xF) (hn : w.nn.toNat = 0x65) : decodeWord w = some (.loadRegs w.x) := by
  simp only [decodeWord_misc h, decodeMisc, hn]

end

/-! ### Decoding an encoded word, one lemma per format (R62) -/

/-- Format A: a row that decodes the address field gives the encoded address back. -/
theorem decode_encA {op : Nat} {f : BitVec 12 → Instr} (nnn : BitVec 12) (hop : op < 16)
    (hdec : ∀ {w : Word}, w.op = op → decodeWord w = some (f w.nnn)) : decode (encA op nnn) = .ok (f nnn) := by
  obtain ⟨ho, hnnn, -⟩ := encA_fields nnn hop
  rw [decode_ok, hdec ho, hnnn]

/-- Format XI with a literal operand. -/
theorem decode_encXI_literal {op : Nat} {f : RegId → Byte → Instr} (x : RegId) (nn : Byte) (hop : op < 16)
    (hdec : ∀ {w : Word}, w.op = op → decodeWord w = some (f w.x w.nn)) :
    decode (encXI op x nn.toNat) = .ok (f x nn) := by
  obtain ⟨ho, hx, hnn⟩ := encXI_fields x hop nn.isLt
  rw [decode_ok, hdec ho, hx, BitVec.eq_of_toNat_eq hnn]

/-- Format X: the second byte is fixed. -/
theorem decode_encXI_fixed {op c : Nat} {f : RegId → Instr} (x : RegId) (hop : op < 16) (hc : c < 256)
    (hdec : ∀ {w : Word}, w.op = op → w.nn.toNat = c → decodeWord w = some (f w.x)) :
    decode (encXI op x c) = .ok (f x) := by
  obtain ⟨ho, hx, hnn⟩ := encXI_fields x hop hc
  rw [decode_ok, hdec ho hnn, hx]

/-- Format XY: the fourth nibble is fixed. -/
theorem decode_encXYN_fixed {op c : Nat} {f : RegId → RegId → Instr} (x y : RegId) (hop : op < 16) (hc : c < 16)
    (hdec : ∀ {w : Word}, w.op = op → w.n.val = c → decodeWord w = some (f w.x w.y)) :
    decode (encXYN op x y c) = .ok (f x y) := by
  obtain ⟨ho, hx, hy, hn⟩ := encXYN_fields x y hop hc
  rw [decode_ok, hdec ho hn, hx, hy]

/-- Settles O1: an instruction's word has the fields its format gives it, and the decoder's row reads them back. -/
theorem decodeEncodeRoundTrip : Obligations.DecodeEncodeRoundTrip := by
  intro i hwf
  cases i with
  | clearScreen => exact decode_ok.mpr (decodeWord_clearScreen rfl)
  | ret => exact decode_ok.mpr (decodeWord_ret rfl)
  | jump nnn => exact decode_encA nnn (by decide) decodeWord_jump
  | call nnn => exact decode_encA nnn (by decide) decodeWord_call
  | skipEqImm x nn => exact decode_encXI_literal x nn (by decide) decodeWord_skipEqImm
  | skipNeImm x nn => exact decode_encXI_literal x nn (by decide) decodeWord_skipNeImm
  | skipEqReg x y => exact decode_encXYN_fixed x y (by decide) (by decide) decodeWord_skipEqReg
  | skipNeReg x y => exact decode_encXYN_fixed x y (by decide) (by decide) decodeWord_skipNeReg
  | setImm x nn => exact decode_encXI_literal x nn (by decide) decodeWord_setImm
  | addImm x nn => exact decode_encXI_literal x nn (by decide) decodeWord_addImm
  | copy x y => exact decode_encXYN_fixed x y (by decide) (by decide) decodeWord_copy
  | orReg x y => exact decode_encXYN_fixed x y (by decide) (by decide) decodeWord_orReg
  | andReg x y => exact decode_encXYN_fixed x y (by decide) (by decide) decodeWord_andReg
  | xorReg x y => exact decode_encXYN_fixed x y (by decide) (by decide) decodeWord_xorReg
  | addReg x y => exact decode_encXYN_fixed x y (by decide) (by decide) decodeWord_addReg
  | sub x y => exact decode_encXYN_fixed x y (by decide) (by decide) decodeWord_sub
  | subn x y => exact decode_encXYN_fixed x y (by decide) (by decide) decodeWord_subn
  | shr x y => exact decode_encXYN_fixed x y (by decide) (by decide) decodeWord_shr
  | shl x y => exact decode_encXYN_fixed x y (by decide) (by decide) decodeWord_shl
  | loadIndex nnn => exact decode_encA nnn (by decide) decodeWord_loadIndex
  | jumpOffset x nnn =>
    obtain ⟨ho, hnnn, hx⟩ := encA_fields nnn (by decide : 0xB < 16)
    rw [encode, decode_ok, decodeWord_jumpOffset ho, hnnn, Fin.ext (hx.trans hwf.symm)]
  | random x nn => exact decode_encXI_literal x nn (by decide) decodeWord_random
  | draw x y n =>
    obtain ⟨ho, hx, hy, hn⟩ := encXYN_fields x y (by decide : 0xD < 16) n.isLt
    rw [encode, decode_ok, decodeWord_draw ho, hx, hy, Fin.ext hn]
  | keyPressed x => exact decode_encXI_fixed x (by decide) (by decide) decodeWord_keyPressed
  | keyNotPressed x => exact decode_encXI_fixed x (by decide) (by decide) decodeWord_keyNotPressed
  | getDelay x => exact decode_encXI_fixed x (by decide) (by decide) decodeWord_getDelay
  | setDelay x => exact decode_encXI_fixed x (by decide) (by decide) decodeWord_setDelay
  | setSound x => exact decode_encXI_fixed x (by decide) (by decide) decodeWord_setSound
  | addIndex x => exact decode_encXI_fixed x (by decide) (by decide) decodeWord_addIndex
  | waitKey x => exact decode_encXI_fixed x (by decide) (by decide) decodeWord_waitKey
  | fontAddress x => exact decode_encXI_fixed x (by decide) (by decide) decodeWord_fontAddress
  | storeBcd x => exact decode_encXI_fixed x (by decide) (by decide) decodeWord_storeBcd
  | storeRegs x => exact decode_encXI_fixed x (by decide) (by decide) decodeWord_storeRegs
  | loadRegs x => exact decode_encXI_fixed x (by decide) (by decide) decodeWord_loadRegs

/-! ### Encoding the fields of a word -/

theorem encA_of_fields {w : Word} {op : Nat} (h : w.op = op) : encA op w.nnn = w := by
  have hop := Word.op_lt w
  have := w.isLt
  apply BitVec.eq_of_toNat_eq
  rw [encA_toNat _ (h ▸ hop), Word.nnn_toNat]
  rw [Word.op_eq] at h
  omega

theorem encXI_of_fields {w : Word} {op c : Nat} (h : w.op = op) (hc : w.nn.toNat = c) : encXI op w.x c = w := by
  have hop := Word.op_lt w
  apply BitVec.eq_of_toNat_eq
  rw [encXI_toNat _ (h ▸ hop) (hc ▸ w.nn.isLt), Word.x_val]
  rw [Word.op_eq] at h
  rw [Word.nn_toNat] at hc
  omega

theorem encXYN_of_fields {w : Word} {op c : Nat} (h : w.op = op) (hc : w.n.val = c) : encXYN op w.x w.y c = w := by
  have hop := Word.op_lt w
  apply BitVec.eq_of_toNat_eq
  rw [encXYN_toNat _ _ (h ▸ hop) (hc ▸ w.n.isLt), Word.x_val, Word.y_val]
  rw [Word.op_eq] at h
  rw [Word.n_val] at hc
  omega

/-- In the group op = 0x8 the word has the fourth nibble of the instruction it decodes to. -/
theorem encode_decodeAlu {w : Word} {i : Instr} (hop : w.op = 0x8) (h : decodeAlu w = some i) :
    i.WellFormed ∧ encode i = w := by
  unfold decodeAlu at h
  split at h
  case h_10 => cases h
  all_goals
    next hn =>
    cases h
    exact ⟨trivial, encXYN_of_fields hop hn⟩

/-- In the group op = 0xF the word has the second byte of the instruction it decodes to. -/
theorem encode_decodeMisc {w : Word} {i : Instr} (hop : w.op = 0xF) (h : decodeMisc w = some i) :
    i.WellFormed ∧ encode i = w := by
  unfold decodeMisc at h
  split at h
  case h_10 => cases h
  all_goals
    next hn =>
    cases h
    exact ⟨trivial, encXI_of_fields hop hn⟩

/-- A word is the encoding of what `decodeWord` reads from it. -/
theorem encode_decodeWord {w : Word} {i : Instr} (h : decodeWord w = some i) : i.WellFormed ∧ encode i = w := by
  unfold decodeWord at h
  split at h
  case h_1 hop =>
    split at h
    · next hw => cases h; exact ⟨trivial, (BitVec.eq_of_toNat_eq hw).symm⟩
    · split at h
      · next hw => cases h; exact ⟨trivial, (BitVec.eq_of_toNat_eq hw).symm⟩
      · cases h
  case h_2 hop => cases h; exact ⟨trivial, encA_of_fields hop⟩
  case h_3 hop => cases h; exact ⟨trivial, encA_of_fields hop⟩
  case h_4 hop => cases h; exact ⟨trivial, encXI_of_fields hop rfl⟩
  case h_5 hop => cases h; exact ⟨trivial, encXI_of_fields hop rfl⟩
  case h_6 hop =>
    split at h
    · next hn => cases h; exact ⟨trivial, encXYN_of_fields hop hn⟩
    · cases h
  case h_7 hop => cases h; exact ⟨trivial, encXI_of_fields hop rfl⟩
  case h_8 hop => cases h; exact ⟨trivial, encXI_of_fields hop rfl⟩
  case h_9 hop => exact encode_decodeAlu hop h
  case h_10 hop =>
    split at h
    · next hn => cases h; exact ⟨trivial, encXYN_of_fields hop hn⟩
    · cases h
  case h_11 hop => cases h; exact ⟨trivial, encA_of_fields hop⟩
  case h_12 hop =>
    cases h
    refine ⟨?_, encA_of_fields hop⟩
    show w.x.val = w.nnn.toNat / 256
    rw [Word.x_val, Word.nnn_toNat]
    omega
  case h_13 hop => cases h; exact ⟨trivial, encXI_of_fields hop rfl⟩
  case h_14 hop => cases h; exact ⟨trivial, encXYN_of_fields hop rfl⟩
  case h_15 hop =>
    split at h
    · next hnn => cases h; exact ⟨trivial, encXI_of_fields hop hnn⟩
    · split at h
      · next hnn => cases h; exact ⟨trivial, encXI_of_fields hop hnn⟩
      · cases h
  case h_16 =>
    have hop : w.op = 0xF := by
      have := Word.op_lt w
      simp only [imp_false] at *
      omega
    exact encode_decodeMisc hop h

/-- Settles O2: each branch of the decoder reads the fields that the encoder of its row writes. -/
theorem decodedWordEncodesBack : Obligations.DecodedWordEncodesBack :=
  fun _ _ h => encode_decodeWord (decode_ok.mp h)

/-! ### The opcode map as a table (R64, R66) -/

/-- A word that the row selects decodes to an instruction of that row. -/
def OpRow.Decodes (r : OpRow) (w : Word) : Prop :=
  r.selects w = true → ∃ i, decode w = .ok i ∧ i.rowName = r.name

section
variable {name : String} {b w : Word} {f : Word → Instr} {op c : Nat}

/-- A row that fixes one word. -/
theorem OpRow.decodes_FFFF (hdec : ∀ {w : Word}, w.toNat = c → decodeWord w = some (f w)) (hb : b.toNat = c)
    (hname : (f w).rowName = name) : OpRow.Decodes ⟨name, b, 0xFFFF⟩ w := by
  intro hsel
  exact ⟨f w, decode_ok.mpr (hdec ((OpRow.selects_FFFF.mp hsel).trans hb)), hname⟩

/-- A row that fixes the major opcode. -/
theorem OpRow.decodes_F000 (hdec : ∀ {w : Word}, w.op = op → decodeWord w = some (f w)) (hb : b.toNat = op * 4096)
    (hname : (f w).rowName = name) : OpRow.Decodes ⟨name, b, 0xF000⟩ w := by
  intro hsel
  have h := OpRow.selects_F000.mp hsel
  exact ⟨f w, decode_ok.mpr (hdec (by rw [Word.op_eq]; omega)), hname⟩

/-- A row that fixes the major opcode and the fourth nibble. -/
theorem OpRow.decodes_F00F (hdec : ∀ {w : Word}, w.op = op → w.n.val = c → decodeWord w = some (f w))
    (hb : b.toNat = op * 4096 + c) (hname : (f w).rowName = name)
    (hc : c < 16 := by decide) :
    OpRow.Decodes ⟨name, b, 0xF00F⟩ w := by
  intro hsel
  have h := OpRow.selects_F00F.mp hsel
  exact ⟨f w, decode_ok.mpr (hdec (by rw [Word.op_eq]; omega) (by rw [Word.n_val]; omega)), hname⟩

/-- A row that fixes the major opcode and the second byte. -/
theorem OpRow.decodes_F0FF (hdec : ∀ {w : Word}, w.op = op → w.nn.toNat = c → decodeWord w = some (f w))
    (hb : b.toNat = op * 4096 + c) (hname : (f w).rowName = name)
    (hc : c < 256 := by decide) :
    OpRow.Decodes ⟨name, b, 0xF0FF⟩ w := by
  intro hsel
  have h := OpRow.selects_F0FF.mp hsel
  exact ⟨f w, decode_ok.mpr (hdec (by rw [Word.op_eq]; omega) (by rw [Word.nn_toNat]; omega)), hname⟩

end

theorem opRowsImmediate_decode (w : Word) : ∀ r ∈ opRowsImmediate, r.Decodes w := by
  simp only [opRowsImmediate, List.forall_mem_cons]
  exact ⟨OpRow.decodes_FFFF decodeWord_clearScreen rfl rfl, OpRow.decodes_FFFF decodeWord_ret rfl rfl,
    OpRow.decodes_F000 decodeWord_jump rfl rfl, OpRow.decodes_F000 decodeWord_call rfl rfl,
    OpRow.decodes_F000 decodeWord_skipEqImm rfl rfl, OpRow.decodes_F000 decodeWord_skipNeImm rfl rfl,
    OpRow.decodes_F00F decodeWord_skipEqReg rfl rfl, OpRow.decodes_F00F decodeWord_skipNeReg rfl rfl,
    OpRow.decodes_F000 decodeWord_setImm rfl rfl, OpRow.decodes_F000 decodeWord_addImm rfl rfl, List.forall_mem_nil _⟩

theorem opRowsRegister_decode (w : Word) : ∀ r ∈ opRowsRegister, r.Decodes w := by
  simp only [opRowsRegister, List.forall_mem_cons]
  exact ⟨OpRow.decodes_F00F decodeWord_copy rfl rfl, OpRow.decodes_F00F decodeWord_orReg rfl rfl,
    OpRow.decodes_F00F decodeWord_andReg rfl rfl, OpRow.decodes_F00F decodeWord_xorReg rfl rfl,
    OpRow.decodes_F00F decodeWord_addReg rfl rfl, OpRow.decodes_F00F decodeWord_sub rfl rfl,
    OpRow.decodes_F00F decodeWord_subn rfl rfl, OpRow.decodes_F00F decodeWord_shr rfl rfl,
    OpRow.decodes_F00F decodeWord_shl rfl rfl, List.forall_mem_nil _⟩

theorem opRowsRest_decode (w : Word) : ∀ r ∈ opRowsRest, r.Decodes w := by
  simp only [opRowsRest, List.forall_mem_cons]
  exact ⟨OpRow.decodes_F000 decodeWord_loadIndex rfl rfl, OpRow.decodes_F000 decodeWord_jumpOffset rfl rfl,
    OpRow.decodes_F000 decodeWord_random rfl rfl, OpRow.decodes_F000 decodeWord_draw rfl rfl,
    OpRow.decodes_F0FF decodeWord_keyPressed rfl rfl, OpRow.decodes_F0FF decodeWord_keyNotPressed rfl rfl,
    OpRow.decodes_F0FF decodeWord_getDelay rfl rfl, OpRow.decodes_F0FF decodeWord_setDelay rfl rfl,
    OpRow.decodes_F0FF decodeWord_setSound rfl rfl, OpRow.decodes_F0FF decodeWord_addIndex rfl rfl,
    OpRow.decodes_F0FF decodeWord_waitKey rfl rfl, OpRow.decodes_F0FF decodeWord_fontAddress rfl rfl,
    OpRow.decodes_F0FF decodeWord_storeBcd rfl rfl, OpRow.decodes_F0FF decodeWord_storeRegs rfl rfl,
    OpRow.decodes_F0FF decodeWord_loadRegs rfl rfl, List.forall_mem_nil _⟩

/-- Every row of the opcode map decodes the words it selects. -/
theorem opRows_decode (w : Word) : ∀ r ∈ opRows, r.Decodes w := by
  simp only [opRows, List.forall_mem_append]
  exact ⟨⟨opRowsImmediate_decode w, opRowsRegister_decode w⟩, opRowsRest_decode w⟩

/-- The word of every instruction is selected by the row that bears the instruction's name. -/
theorem encode_selected (i : Instr) : Laws.EncodeRow.Statement i := by
  cases i with
  | clearScreen => exact Laws.EncodeRow.clearScreen
  | ret => exact Laws.EncodeRow.ret
  | jump nnn => exact Laws.EncodeRow.jump nnn
  | call nnn => exact Laws.EncodeRow.call nnn
  | skipEqImm x nn => exact Laws.EncodeRow.skipEqImm x nn
  | skipNeImm x nn => exact Laws.EncodeRow.skipNeImm x nn
  | skipEqReg x y => exact Laws.EncodeRow.skipEqReg x y
  | skipNeReg x y => exact Laws.EncodeRow.skipNeReg x y
  | setImm x nn => exact Laws.EncodeRow.setImm x nn
  | addImm x nn => exact Laws.EncodeRow.addImm x nn
  | copy x y => exact Laws.EncodeRow.copy x y
  | orReg x y => exact Laws.EncodeRow.orReg x y
  | andReg x y => exact Laws.EncodeRow.andReg x y
  | xorReg x y => exact Laws.EncodeRow.xorReg x y
  | addReg x y => exact Laws.EncodeRow.addReg x y
  | sub x y => exact Laws.EncodeRow.sub x y
  | subn x y => exact Laws.EncodeRow.subn x y
  | shr x y => exact Laws.EncodeRow.shr x y
  | shl x y => exact Laws.EncodeRow.shl x y
  | loadIndex nnn => exact Laws.EncodeRow.loadIndex nnn
  | jumpOffset x nnn => exact Laws.EncodeRow.jumpOffset x nnn
  | random x nn => exact Laws.EncodeRow.random x nn
  | draw x y n => exact Laws.EncodeRow.draw x y n
  | keyPressed x => exact Laws.EncodeRow.keyPressed x
  | keyNotPressed x => exact Laws.EncodeRow.keyNotPressed x
  | getDelay x => exact Laws.EncodeRow.getDelay x
  | setDelay x => exact Laws.EncodeRow.setDelay x
  | setSound x => exact Laws.EncodeRow.setSound x
  | addIndex x => exact Laws.EncodeRow.addIndex x
  | waitKey x => exact Laws.EncodeRow.waitKey x
  | fontAddress x => exact Laws.EncodeRow.fontAddress x
  | storeBcd x => exact Laws.EncodeRow.storeBcd x
  | storeRegs x => exact Laws.EncodeRow.storeRegs x
  | loadRegs x => exact Laws.EncodeRow.loadRegs x

/-- Settles O3: each row decodes what it selects; and a word that decodes is the encoding of its instruction, which
some row selects. -/
theorem decodeFollowsOpcodeTable : Obligations.DecodeFollowsOpcodeTable := by
  intro w
  refine ⟨opRows_decode w, fun hnone => decode_error.mpr ⟨?_, rfl⟩⟩
  cases hdec : decodeWord w with
  | none => rfl
  | some i =>
    obtain ⟨r, hmem, -, hsel⟩ := encode_selected i
    rw [(encode_decodeWord hdec).2, hnone r hmem] at hsel
    cases hsel

/-- Two rows that select one word agree on the bits that both of them fix. -/
theorem OpRow.bits_and_mask_eq {r r' : OpRow} {w : Word} (h : r.selects w = true) (h' : r'.selects w = true) :
    r.bits &&& r'.mask = r'.bits &&& r.mask := by
  rw [← beq_iff_eq.mp h, ← beq_iff_eq.mp h', BitVec.and_assoc, BitVec.and_assoc, BitVec.and_comm r.mask]

/-- Settles O4: any two rows differ in a bit that both of them fix. -/
theorem opcodeRowsPairwiseDisjoint : Obligations.OpcodeRowsPairwiseDisjoint := by
  have hdiff : opRows.Pairwise fun r r' => r.bits &&& r'.mask ≠ r'.bits &&& r.mask := by decide
  exact hdiff.imp fun hne _ hsel => hne (OpRow.bits_and_mask_eq hsel.1 hsel.2)

/-! ### The unknown words (R67, R68) -/

theorem decodeAlu_eq_none {w : Word} : decodeAlu w = none ↔ 8 ≤ w.n.val ∧ w.n.val ≠ 14 := by
  have := w.n.isLt
  unfold decodeAlu
  split
  case h_10 =>
    simp only [imp_false] at *
    simp only [true_iff]
    omega
  all_goals
    next hn => simp [hn, -Word.n_val]

theorem decodeMisc_eq_none {w : Word} :
    decodeMisc w = none ↔ w.nn.toNat ∉ [0x07, 0x0A, 0x15, 0x18, 0x1E, 0x29, 0x33, 0x55, 0x65] := by
  unfold decodeMisc
  split
  case h_10 => simp_all only [List.mem_cons, List.not_mem_nil, imp_false, or_self, not_false_eq_true]
  all_goals
    next hn => simp [hn, -Word.nn_toNat]

theorem decodeWord_zero_eq_none {w : Word} (h : w.op = 0x0) :
    decodeWord w = none ↔ w.toNat ≠ 0x00E0 ∧ w.toNat ≠ 0x00EE := by
  simp only [decodeWord, h]
  split_ifs with h1 h2
  · simp [h1]
  · simp [h2]
  · simp [h1, h2]

theorem decodeWord_key_eq_none {w : Word} (h : w.op = 0xE) :
    decodeWord w = none ↔ w.nn.toNat ≠ 0x9E ∧ w.nn.toNat ≠ 0xA1 := by
  simp only [decodeWord, h]
  split_ifs with h1 h2
  · simp [h1, -Word.nn_toNat]
  · simp [h2, -Word.nn_toNat]
  · simp [h1, h2, -Word.nn_toNat]

/-- The other opcodes of the map leave no word unknown. -/
theorem decodeWord_ne_none {w : Word} (h : w.op ∈ [0x1, 0x2, 0x3, 0x4, 0x6, 0x7, 0xA, 0xB, 0xC, 0xD]) :
    decodeWord w ≠ none := by
  simp only [List.mem_cons, List.not_mem_nil, or_false] at h
  rcases h with h | h | h | h | h | h | h | h | h | h
  all_goals simp [decodeWord, h, -Word.op_eq]

/-- Settles O5: opcode by opcode, the words that the decoder's branch rejects. -/
theorem unknownWordClassification : Obligations.UnknownWordClassification := by
  intro w
  rw [decode_error, and_iff_left rfl]
  have hop : w.op = 0 ∨ w.op = 5 ∨ w.op = 8 ∨ w.op = 9 ∨ w.op = 14 ∨ w.op = 15 ∨
      w.op ∈ [0x1, 0x2, 0x3, 0x4, 0x6, 0x7, 0xA, 0xB, 0xC, 0xD] := by
    have := Word.op_lt w
    simp only [List.mem_cons, List.not_mem_nil, or_false]
    omega
  rcases hop with h | h | h | h | h | h | h
  · rw [decodeWord_zero_eq_none h, h]
    simp
  · simp [decodeWord, h, -Word.op_eq, -Word.n_val]
  · rw [decodeWord_alu h, decodeAlu_eq_none, h]
    simp
  · simp [decodeWord, h, -Word.op_eq, -Word.n_val]
  · rw [decodeWord_key_eq_none h, h]
    simp
  · rw [decodeWord_misc h, decodeMisc_eq_none, h]
    simp
  · simp only [decodeWord_ne_none h, false_iff]
    simp only [List.mem_cons, List.not_mem_nil, or_false] at h
    omega

/-- Settles O6: each word is decoded by its own row, and the last two by none. -/
theorem printedWordsDecode : Obligations.PrintedWordsDecode :=
  ⟨rfl, rfl, rfl, rfl, rfl, rfl, rfl, rfl, rfl, rfl⟩

end Sys2Proof
end

section
/-! Proofs: the statements about the step of each kind of word, of a halted machine and of a placed word. -/

namespace Sys2Proof.Machine

/-! ### The step and its report, one pair of equations per branch (R80, R86) -/

theorem step_halted {s : State} {c : FatalCause} (hc : s.halt = some c) : step s = .fault (.halted c) := by
  rw [step, hc]

theorem stepResult_halted {s : State} {c : FatalCause} (hc : s.halt = some c) : stepResult s = .fatal c := by
  rw [stepResult, hc]

theorem step_of_fetchBounds {s : State} (hh : s.halt = none) (hp : 4095 < s.pc.toNat + 1) :
    step s = .next { s with halt := some (.fetchBounds s.pc.toNat) } := by
  rw [step, hh, State.fetch_error hp]
  rfl

theorem stepResult_of_fetchBounds {s : State} (hh : s.halt = none) (hp : 4095 < s.pc.toNat + 1) :
    stepResult s = .fatal (.fetchBounds s.pc.toNat) := by
  rw [stepResult, hh, State.fetch_error hp]

theorem step_of_unknown {s : State} {r : DecodeReject} (hh : s.halt = none) (hp : s.pc.toNat + 1 ≤ 4095)
    (hd : decode s.wordAtPc = .error r) : step s = .next (s.setPc (s.pc + 2)) := by
  rw [step, hh, State.fetch_ok hp]
  dsimp only
  rw [State.attempt_ok, hd]

theorem stepResult_of_unknown {s : State} {r : DecodeReject} (hh : s.halt = none) (hp : s.pc.toNat + 1 ≤ 4095)
    (hd : decode s.wordAtPc = .error r) : stepResult s = .unknown s.wordAtPc s.pc.toNat := by
  rw [stepResult, hh, State.fetch_ok hp]
  dsimp only
  rw [hd]

theorem stepResult_of_decode_ok {s : State} {i : Instr} (hh : s.halt = none) (hp : s.pc.toNat + 1 ≤ 4095)
    (hd : decode s.wordAtPc = .ok i) : stepResult s = execReport (exec i (s.setPc (s.pc + 2))) := by
  rw [stepResult, hh, State.fetch_ok hp]
  dsimp only
  rw [hd]

/-- Settles O8: the step and the report of a word that decodes. -/
theorem stepRunsDecodedInstruction : Obligations.StepRunsDecodedInstruction :=
  fun _ _ hh hp hd => ⟨step_of_decode_ok hh hp hd, stepResult_of_decode_ok hh hp hd⟩

/-- Settles O9: the step and the report of a word that does not decode. -/
theorem unknownWordSteppedOver : Obligations.UnknownWordSteppedOver := by
  intro s w hh hp hw hd
  subst hw
  exact ⟨step_of_unknown hh hp hd, stepResult_of_unknown hh hp hd⟩

/-- Settles O10: the step and the report past the fetch bound. -/
theorem fetchPastEndHalts : Obligations.FetchPastEndHalts := by
  intro s hh hp
  have hbound : 4095 < s.pc.toNat + 1 := by omega
  exact ⟨step_of_fetchBounds hh hbound, stepResult_of_fetchBounds hh hbound⟩

/-! ### Halted machines -/

/-- No event changes a halted machine (R87, R204). -/
theorem deliver_halted {s : State} {c : FatalCause} (e : Event) (hc : s.halt = some c) : deliver e s = s := by
  have hne : s.halt ≠ none := by rw [hc]; exact Option.some_ne_none c
  cases e with
  | step => rw [deliver, step_halted hc]
  | tick => exact tick_halted hne
  | setKey k b => exact setKey_halted k b hne

theorem runTrace_halted {s : State} {c : FatalCause} (hc : s.halt = some c) (es : List Event) : runTrace es s = s := by
  induction es with
  | nil => rfl
  | cons e es ih => rw [runTrace, deliver_halted e hc, ih]

/-- Settles O11: no event changes a halted machine, so by induction no sequence of events does. -/
theorem haltedMachineFrozen : Obligations.HaltedMachineFrozen :=
  fun _ _ hc => ⟨step_halted hc, stepResult_halted hc, runTrace_halted hc⟩

/-! ### Placed words -/

theorem State.fetchablePc_bound (s : State) : s.fetchablePc.toNat + 1 ≤ 4095 := by
  unfold State.fetchablePc
  split
  · decide
  · omega

/-- The host's reading of a 16-bit table word is the decoding of that word. -/
theorem decodeTableWord_eq_some {w : Nat} {i : Instr} (h : decodeTableWord 16 w = some i) :
    decode (tableWord 16 w) = .ok i := by
  rw [decodeTableWord, decodeBytes, Word.ofBytes_bytes] at h
  cases hd : decode (tableWord 16 w) with
  | ok j => rw [hd] at h; exact congrArg Except.ok (Option.some.inj h)
  | error r => rw [hd] at h; cases h

/-- Settles O15: the placed word is the word at a PC that can be fetched, on a machine that is not halted. -/
theorem placedWordRunsNext : Obligations.PlacedWordRunsNext := by
  intro s w i hm hw
  have hword : decode (s.withFetchWord 16 w).wordAtPc = .ok i := by
    rw [State.withFetchWord, State.wordAtPc_placeWord _ hm]
    exact decodeTableWord_eq_some hw
  exact step_of_decode_ok rfl s.fetchablePc_bound hword

end Sys2Proof.Machine
end

section
/-! Proofs: the statements about the call stack and the jump with an offset. -/

namespace Sys2Proof.Machine

/-! ### Return, call and jump-offset, one equation per branch (R101, R103, R109) -/

theorem exec_ret_pop {s : State} {k : Fin 16} (hk : k.val + 1 = s.sp.val) :
    exec .ret s = .next { s with sp := k.castSucc, pc := s.stack.get k } := by
  have hpos : 0 < s.sp.val := by omega
  have htop : (⟨s.sp.val - 1, by omega⟩ : Fin 16) = k := Fin.ext (by simp only; omega)
  show execRet s = _
  rw [execRet, State.pop_ok hpos, State.attempt_ok, ← htop]
  rfl

theorem exec_ret_empty {s : State} (h : s.sp.val = 0) :
    exec .ret s = .next { s with halt := some .stackUnderflow } := by
  show execRet s = _
  rw [execRet, State.pop_empty (by omega), State.attempt_error, State.raise_eq]

theorem exec_call_push {s : State} (nnn : BitVec 12) (h : s.sp.val < 16) :
    exec (.call nnn) s = .next { s with
      stack := s.stack.set s.sp.val s.pc h, sp := ⟨s.sp.val + 1, Nat.succ_lt_succ h⟩, pc := addrLit nnn } := by
  show execCall nnn s = _
  rw [execCall, State.push_ok _ h, State.attempt_ok]
  rfl

theorem exec_call_full {s : State} (nnn : BitVec 12) (h : s.sp.val = 16) :
    exec (.call nnn) s = .next { s with halt := some .stackOverflow } := by
  show execCall nnn s = _
  rw [execCall, State.push_full _ (by omega), State.attempt_error, State.raise_eq]

theorem exec_jumpOffset (x : RegId) (nnn : BitVec 12) (s : State) :
    exec (.jumpOffset x nnn) s = .next (s.setPc ((s.reg (s.jumpReg x)).setWidth 16 + addrLit nnn)) := rfl

/-- A push replaces the entry at SP and keeps the others (R21). -/
theorem stack_get_set (st : Vector Addr 16) {n : Nat} (a : Addr) (h : n < 16) (k : Fin 16) :
    (st.set n a h).get k = if k.val = n then a else st.get k := by
  simp only [Vector.get_eq_getElem, Vector.getElem_set, eq_comm]

/-- Settles O23: the two branches of the push. -/
theorem callPushesOrOverflows : Obligations.CallPushesOrOverflows := by
  intro nnn s
  refine ⟨fun h => ?push, fun h => exec_call_full nnn h⟩
  case push => exact ⟨_, _, _, exec_call_push nnn h, addrLit_toNat nnn, rfl, stack_get_set _ _ h⟩

/-- Settles O24: the two branches of the pop. -/
theorem returnPopsOrUnderflows : Obligations.ReturnPopsOrUnderflows :=
  fun _ => ⟨fun _ hk => exec_ret_pop hk, fun h => exec_ret_empty h⟩

/-- Settles O25: a call that does not halt pushes p + 2 at the old SP, and the return pops that entry. -/
theorem callReturnRoundTrip : Obligations.CallReturnRoundTrip := by
  intro nnn s t u _ hcall ht hsp hstack
  by_cases h : s.sp.val < 16
  · rw [exec_call_push nnn h] at hcall
    obtain rfl := Host.Outcome.next.inj hcall
    have htop : (⟨s.sp.val, h⟩ : Fin 16).val + 1 = u.sp.val := by rw [hsp]
    rw [exec_ret_pop htop, hstack, stack_get_set, if_pos rfl]
    rfl
  · rw [exec_call_full nnn (by omega)] at hcall
    obtain rfl := Host.Outcome.next.inj hcall
    cases ht

/-- The sum of a byte and a 12-bit literal fits PC, so it is not reduced (R109, R15). -/
theorem byte_add_addrLit_toNat (b : Byte) (nnn : BitVec 12) :
    (b.setWidth 16 + addrLit nnn : Addr).toNat = b.toNat + nnn.toNat := by
  have hb := b.isLt
  have hn := nnn.isLt
  rw [BitVec.toNat_add, addrLit_toNat, BitVec.toNat_setWidth_of_le (by decide)]
  omega

theorem State.reg_jumpReg (s : State) (x : RegId) :
    s.reg (s.jumpReg x) = if s.cfg.jump = true then s.reg x else s.reg 0 := by
  unfold State.jumpReg
  split <;> rfl

/-- Settles O27: the register added is the one the quirk chooses, and the sum is not reduced. -/
theorem jumpOffsetAddsRegister : Obligations.JumpOffsetAddsRegister := by
  intro x nnn s
  refine ⟨_, exec_jumpOffset x nnn s, ?_⟩
  rw [byte_add_addrLit_toNat, State.reg_jumpReg]

end Sys2Proof.Machine
end

section
/-! Proofs: the statements about the arithmetic that writes VF, the shifts and random. -/

namespace Sys2Proof.Machine

open Sys2Proof.Certificates (RegsBecome)

theorem regsBecome_congr {o : Host.Outcome State Fault Refusal} {s : State} {f g : RegId → Byte}
    (h : RegsBecome o s f) (hfg : ∀ r, f r = g r) : RegsBecome o s g := funext hfg ▸ h

theorem flagByte_decide (p : Prop) [Decidable p] : flagByte (decide p) = if p then 1 else 0 := by
  simp only [flagByte, decide_eq_true_eq]

/-- The byte subtraction wraps: it is the difference modulo 256 (R128). -/
theorem byte_sub_eq_ofNat_mod (a b : Byte) : a - b = BitVec.ofNat 8 ((a.toNat + 256 - b.toNat) % 256) := by
  have ha := a.isLt
  have hb := b.isLt
  refine BitVec.eq_of_toNat_eq ?_
  simp only [BitVec.toNat_sub, BitVec.toNat_ofNat]
  omega

theorem exec_addReg (x y : RegId) (s : State) :
    exec (.addReg x y) s = .next (s.resultThenFlag x (s.reg x + s.reg y) (carry8 (s.reg x) (s.reg y))) := rfl

theorem exec_sub (x y : RegId) (s : State) :
    exec (.sub x y) s = .next (s.resultThenFlag x (s.reg x - s.reg y) (noBorrow (s.reg x) (s.reg y))) := rfl

theorem exec_subn (x y : RegId) (s : State) :
    exec (.subn x y) s = .next (s.resultThenFlag x (s.reg y - s.reg x) (noBorrow (s.reg y) (s.reg x))) := rfl

/-- The result, then the flag: VF holds the flag even when it is the destination (R134). -/
theorem regsBecome_resultThenFlag (s : State) (x : RegId) (b : Byte) (c : Bool) :
    RegsBecome (.next (s.resultThenFlag x b c)) s fun r =>
      if r = regF then flagByte c else if r = x then b else s.reg r := by
  refine ⟨(s.resultThenFlag x b c).v, rfl, fun r => ?_⟩
  have hflag := State.reg_setFlag (s.setReg x b) c r
  rw [State.reg_setReg] at hflag
  exact hflag

/-- Settles O31: the byte sum wraps, and the flag written after it is the carry. -/
theorem addSetsCarry : Obligations.AddSetsCarry := by
  intro x y s
  rw [exec_addReg, byte_add_eq_ofNat_mod, carry8]
  simp only [← flagByte_decide]
  exact regsBecome_resultThenFlag s x _ _

/-- Settles O32: the byte difference wraps, and the flag written after it says that no borrow occurred. -/
theorem subtractSetsNoBorrow : Obligations.SubtractSetsNoBorrow := by
  intro x y s
  rw [exec_sub, exec_subn, byte_sub_eq_ofNat_mod, byte_sub_eq_ofNat_mod, noBorrow, noBorrow]
  simp only [← flagByte_decide]
  exact ⟨regsBecome_resultThenFlag s x _ _, regsBecome_resultThenFlag s x _ _⟩

/-! ### Shifts (R130, R131) -/

/-- The byte that a shift shifts: VY under the quirk, VX otherwise. -/
def State.shiftOperand (s : State) (x y : RegId) : Byte := if s.cfg.shift = true then s.reg y else s.reg x

theorem exec_shr (x y : RegId) (s : State) :
    exec (.shr x y) s = .next ((s.shiftSource x y).flagThenShift x shrOut (· >>> 1)) := rfl

theorem exec_shl (x y : RegId) (s : State) :
    exec (.shl x y) s = .next ((s.shiftSource x y).flagThenShift x shlOut (· <<< 1)) := rfl

theorem State.reg_shiftSource (s : State) (x y r : RegId) :
    (s.shiftSource x y).reg r = if r = x then s.shiftOperand x y else s.reg r := by
  unfold State.shiftSource State.shiftOperand
  split
  · exact State.reg_setReg s x r _
  · split
    · next h => rw [h]
    · rfl

theorem State.shiftSource_eq (s : State) (x y : RegId) : s.shiftSource x y = { s with v := (s.shiftSource x y).v } := by
  unfold State.shiftSource
  split <;> rfl

/-- Both shifts: VF takes the bit shifted out, then VX the shifted byte, which is the flag itself when x = 15. -/
theorem regsBecome_shift (s : State) (x y : RegId) (out : Byte → Bool) (f : Byte → Byte) :
    RegsBecome (.next ((s.shiftSource x y).flagThenShift x out f)) s fun r =>
      if r = x then (if x = regF then f (flagByte (out (s.shiftOperand x y))) else f (s.shiftOperand x y))
      else if r = regF then flagByte (out (s.shiftOperand x y)) else s.reg r := by
  refine ⟨((s.shiftSource x y).flagThenShift x out f).v, ?_, fun r => ?_⟩
  · rw [State.flagThenShift, State.shiftSource_eq]
    rfl
  · show ((s.shiftSource x y).flagThenShift x out f).reg r = _
    rw [State.flagThenShift, State.reg_setReg, State.reg_setFlag, State.reg_setFlag]
    simp only [State.reg_shiftSource, if_true]
    split_ifs <;> rfl

theorem shr_one_eq_ofNat (t : Byte) : t >>> 1 = BitVec.ofNat 8 (t.toNat / 2) := by
  have ht := t.isLt
  refine BitVec.eq_of_toNat_eq ?_
  rw [BitVec.toNat_ushiftRight, BitVec.toNat_ofNat, Nat.shiftRight_eq_div_pow]
  omega

theorem shl_one_eq_ofNat (t : Byte) : t <<< 1 = BitVec.ofNat 8 (2 * t.toNat % 256) := by
  refine BitVec.eq_of_toNat_eq ?_
  rw [BitVec.toNat_shiftLeft, BitVec.toNat_ofNat, Nat.shiftLeft_eq]
  omega

theorem flagByte_shrOut (t : Byte) : flagByte (shrOut t) = BitVec.ofNat 8 (t.toNat % 2) := by
  revert t; decide

theorem flagByte_shlOut (t : Byte) : flagByte (shlOut t) = BitVec.ofNat 8 (t.toNat / 128) := by
  revert t; decide

theorem flagByte_shr_one (c : Bool) : flagByte c >>> 1 = 0 := by cases c <;> rfl

theorem flagByte_shlOut_shl_one (t : Byte) : flagByte (shlOut t) <<< 1 = BitVec.ofNat 8 (2 * (t.toNat / 128)) := by
  revert t; decide

/-- Settles O33: the law of both shifts, with the bit shifted out and the shifted byte as numbers. -/
theorem shiftsSetShiftedOutBit : Obligations.ShiftsSetShiftedOutBit := by
  intro x y s t ht
  subst ht
  rw [exec_shr, exec_shl]
  refine ⟨regsBecome_congr (regsBecome_shift s x y shrOut (· >>> 1)) fun r => ?shr,
    regsBecome_congr (regsBecome_shift s x y shlOut (· <<< 1)) fun r => ?shl⟩
  case shr =>
    rw [flagByte_shr_one, shr_one_eq_ofNat, flagByte_shrOut]
    rfl
  case shl =>
    rw [flagByte_shlOut_shl_one, shl_one_eq_ofNat, flagByte_shlOut]
    rfl

/-! ### Random (R132) -/

theorem exec_random (x : RegId) (nn : Byte) (s : State) :
    exec (.random x nn) s = .next (s.drawRand.2.setReg x (Config.randByte s.draws &&& nn)) := rfl

/-- Settles O34: one byte is drawn and VX takes it masked, and a bit of the masked byte is a bit of the mask. -/
theorem randomIsMaskedDraw : Obligations.RandomIsMaskedDraw := by
  intro x nn s
  refine ⟨(s.drawRand.2.setReg x (Config.randByte s.draws &&& nn)).v, exec_random x nn s,
    fun r => State.reg_setReg s.drawRand.2 x r _, fun b _ hb => ?mask⟩
  case mask =>
    rw [← State.reg_eq, State.reg_setReg_same, BitVec.getLsbD_and, Bool.and_eq_true] at hb
    exact hb.2

end Sys2Proof.Machine
end

section
/-! Proofs: the statements about add-index, font-address and the key instructions. -/

namespace Sys2Proof.Machine

open Sys2Proof.Certificates (RegsBecome)

/-! ### The index register (R142, R143) -/

theorem exec_addIndex (x : RegId) (s : State) :
    exec (.addIndex x) s = .next ((s.setI (s.i + (s.reg x).setWidth 16)).setFlag (carry16 s.i (s.reg x))) := rfl

theorem exec_fontAddress (x : RegId) (s : State) :
    exec (.fontAddress x) s = .next (s.setI (glyphAddr (s.reg x))) := rfl

/-- Settles O36: I takes the 16-bit sum, and the flag written after it is the carry out of 16 bits. -/
theorem addIndexWritesFlagAlways : Obligations.AddIndexWritesFlagAlways := by
  intro x s
  refine ⟨s.i + (s.reg x).setWidth 16, _, exec_addIndex x s, ?sum, fun r => ?flag⟩
  case sum => rw [BitVec.toNat_add, BitVec.toNat_setWidth_of_le (by decide)]
  case flag =>
    rw [← flagByte_decide]
    exact State.reg_setFlag (s.setI (s.i + (s.reg x).setWidth 16)) (carry16 s.i (s.reg x)) r

/-- Settles O37: the address of the glyph of any byte fits 16 bits. -/
theorem fontAddressIsFiveTimesDigit : Obligations.FontAddressIsFiveTimesDigit := by
  intro x s
  refine ⟨_, exec_fontAddress x s, ?_⟩
  have hv := (s.reg x).isLt
  rw [glyphAddr, BitVec.toNat_ofNat, Nat.mod_eq_of_lt (by simp only [Config.glyphBase]; omega)]

/-! ### The key instructions, one equation per branch (R181 to R184) -/

theorem State.keyLine_eq {s : State} {b : Byte} {k : Fin 16} (hk : b.toNat = k.val) :
    s.keyLine b = .ok (s.key.get k) := by
  have hlt : b.toNat < 16 := hk ▸ k.isLt
  rw [State.keyLine_ok hlt]
  exact congrArg (fun j => Except.ok (s.key.get j)) (Fin.ext hk)

theorem exec_keyPressed_line {x : RegId} {s : State} {k : Fin 16} (hk : (s.reg x).toNat = k.val) :
    exec (.keyPressed x) s = .next (s.skipIf (s.key.get k)) := by
  show execKeyPressed x s = _
  rw [execKeyPressed, State.keyLine_eq hk, State.attempt_ok]

theorem exec_keyNotPressed_line {x : RegId} {s : State} {k : Fin 16} (hk : (s.reg x).toNat = k.val) :
    exec (.keyNotPressed x) s = .next (s.skipIf !(s.key.get k)) := by
  show execKeyNotPressed x s = _
  rw [execKeyNotPressed, State.keyLine_eq hk, State.attempt_ok]

theorem exec_keyPressed_bounds {x : RegId} {s : State} (h : 15 < (s.reg x).toNat) :
    exec (.keyPressed x) s = .next { s with halt := some (.keyBounds (s.reg x).toNat) } := by
  show execKeyPressed x s = _
  rw [execKeyPressed, State.keyLine_error h, State.attempt_error, State.raise_eq]

theorem exec_keyNotPressed_bounds {x : RegId} {s : State} (h : 15 < (s.reg x).toNat) :
    exec (.keyNotPressed x) s = .next { s with halt := some (.keyBounds (s.reg x).toNat) } := by
  show execKeyNotPressed x s = _
  rw [execKeyNotPressed, State.keyLine_error h, State.attempt_error, State.raise_eq]

theorem State.skipIf_not (s : State) (c : Bool) :
    s.skipIf (!c) = { s with pc := if c = true then s.pc else s.pc + 2 } := by
  cases c <;> rfl

theorem exec_waitKey_some {x : RegId} {s : State} {k : Fin 16} (h : s.firstKey = some k) :
    exec (.waitKey x) s = .next (s.setReg x (BitVec.ofNat 8 k.val)) := by
  show execWaitKey x s = _
  rw [execWaitKey, h]

theorem exec_waitKey_none {x : RegId} {s : State} (h : s.firstKey = none) :
    exec (.waitKey x) s = .next (s.setPc (s.pc - 2)) := by
  show execWaitKey x s = _
  rw [execWaitKey, h]

/-- Settles O47: a key number up to 15 names a line, and each instruction skips by its level; a higher one halts. -/
theorem keySkipsTestLine : Obligations.KeySkipsTestLine := by
  intro x s
  refine ⟨fun k hk => ⟨?pressed, ?notPressed⟩, fun h => ⟨exec_keyPressed_bounds h, exec_keyNotPressed_bounds h⟩⟩
  case pressed => rw [exec_keyPressed_line hk, State.skipIf_eq]
  case notPressed => rw [exec_keyNotPressed_line hk, State.skipIf_not]

/-- Settles O48: the scan finds the lowest true line, or none. -/
theorem waitKeyTakesLowestLine : Obligations.WaitKeyTakesLowestLine := by
  intro x s
  refine ⟨fun k hk hlow => ?line, fun hnone => exec_waitKey_none (State.firstKey_eq_none.mpr hnone)⟩
  case line =>
    rw [exec_waitKey_some (State.firstKey_eq_some.mpr ⟨hk, hlow⟩)]
    exact regsBecome_setReg s x _

end Sys2Proof.Machine
end

section
/-! Proofs: the statements about memory, loads and stores. -/

namespace Sys2Proof.Machine

open Sys2Proof.Certificates (RegsBecome)

/-- Settles O19: the two sides of the bound are the laws of the checked accesses, and a write is read back. -/
theorem checkedAccessLaws : Obligations.CheckedAccessLaws := by
  intro s a b hm
  refine ⟨fun h => ⟨State.memRead_error h, State.memWrite_error b h⟩, fun h => ⟨State.memRead_ok h, ?write⟩⟩
  case write =>
    have hlt : a < Config.memSize := by
      simp only [Config.memSize]
      omega
    exact ⟨_, State.memWrite_ok b h, Memory.write_wf b hm hlt, Memory.read_write_same a b hm,
      fun c hc => Memory.read_write_of_ne b hc⟩

/-! ### Canonical memory is a function of its contents -/

/-- A canonical memory lists exactly the cells that do not hold what they hold at reset. -/
theorem Memory.mem_iff_read {m : Memory} (hm : Memory.wf m) (c : Host.Cell) :
    c ∈ m ↔ Memory.read m c.1 = c.2 ∧ c.2 ≠ resetByte c.1 := by
  induction m with
  | nil =>
    simp only [List.not_mem_nil, false_iff, not_and, Memory.read]
    exact fun h hne => hne h.symm
  | cons d m ih =>
    have hlt := Memory.wf_head_lt hm
    rw [List.mem_cons, ih (Memory.wf_tail hm), Memory.read]
    rcases eq_or_ne d.1 c.1 with hdc | hdc
    · have hunlisted : Memory.read m c.1 = resetByte c.1 :=
        Memory.read_unlisted fun e he => (hdc ▸ hlt e he).ne'
      have hd := (hm.2 d (by simp)).2
      simp only [hdc, if_true, hunlisted]
      constructor
      · rintro (rfl | ⟨h, hne⟩)
        · exact ⟨rfl, hd⟩
        · exact absurd h.symm hne
      · rintro ⟨h, -⟩
        exact .inl (Prod.ext hdc.symm h.symm)
    · have hne : c ≠ d := fun h => hdc (congrArg Prod.fst h).symm
      simp only [hdc, hne, if_false, false_or]

/-- Settles O20: memories that read alike list the same cells, and a strictly rising list is given by its members. -/
theorem canonicalMemoryIsExtensional : Obligations.CanonicalMemoryIsExtensional := by
  intro m m' hm hm' hread
  have hirrefl : Std.Irrefl fun c d : Host.Cell => c.1 < d.1 := ⟨fun c => lt_irrefl c.1⟩
  have hasymm : Std.Asymm fun c d : Host.Cell => c.1 < d.1 := ⟨fun c d => lt_asymm⟩
  refine hm.1.eq_of_mem_iff hm'.1 fun c => ?_
  rw [Memory.mem_iff_read hm, Memory.mem_iff_read hm', hread]

end Sys2Proof.Machine
end

section
/-! Proofs: the statements about block stores and loads. -/

namespace Sys2Proof.Machine

open Sys2Proof.Certificates (RegsBecome)

/-! ### The block of memory at I -/

/-- The Memory Image after bytes are written at I, I + 1, .... -/
def State.memWithBlock (s : State) (bs : List Byte) : Memory := Memory.writeAll s.mem (s.dataAddr 0) bs

section
variable {s : State} {bs : List Byte}

/-- A block that fits in memory is empty or ends inside it. -/
theorem State.block_bound (hfit : ∀ j < bs.length, s.dataAddr j ≤ 4095) :
    bs = [] ∨ s.dataAddr 0 + bs.length ≤ Config.memSize := by
  rcases eq_or_ne bs [] with hnil | hne
  · exact .inl hnil
  · have hpos := List.length_pos_iff.mpr hne
    have hlast := hfit (bs.length - 1) (by omega)
    simp only [State.dataAddr, Config.memSize] at hlast ⊢
    exact .inr (by omega)

/-- m is the memory of s with the bytes of a list at I, I + 1, ... and every other byte as it was. -/
structure State.BlockStored (s : State) (bs : List Byte) (m : Memory) : Prop where
  wf : Memory.wf m
  inside : ∀ k, (hk : k < bs.length) → Memory.read m (s.dataAddr k) = bs[k]
  outside : ∀ a, (∀ j < bs.length, a ≠ s.dataAddr j) → Memory.read m a = Memory.read s.mem a

theorem State.memWithBlock_stored (hm : Memory.wf s.mem) (hfit : ∀ j < bs.length, s.dataAddr j ≤ 4095) :
    s.BlockStored bs (s.memWithBlock bs) := by
  rcases s.block_bound hfit with rfl | hbound
  · exact ⟨hm, (fun k hk => nomatch hk), fun _ _ => rfl⟩
  · refine ⟨Memory.writeAll_wf bs hm hbound, fun k hk => ?inside, fun a ha => ?outside⟩
    case inside =>
      rw [State.memWithBlock, Memory.read_writeAll bs hm hbound]
      simp only [State.dataAddr, Nat.add_zero, Nat.add_sub_cancel_left]
      rw [if_pos (by omega), List.getD_eq_getElem bs 0 hk]
    case outside =>
      rw [State.memWithBlock, Memory.read_writeAll bs hm hbound, if_neg]
      rintro ⟨hlow, hhigh⟩
      refine ha (a - s.dataAddr 0) (by omega) ?_
      simp only [State.dataAddr] at hlow ⊢
      omega

/-- A store whose bytes all fit writes its block and changes nothing else. -/
theorem storeFrom_fits (hfit : ∀ j < bs.length, s.dataAddr j ≤ 4095) :
    storeFrom 0 bs s = .next { s with mem := s.memWithBlock bs } := by
  rcases s.block_bound hfit with rfl | hbound
  · rfl
  · exact storeFrom_inBounds hbound

section
variable {k : Nat}

/-- A store whose byte k is the first that does not fit writes the block of the bytes before it, and raises there. -/
theorem storeFrom_firstBad (hk : k < bs.length) (hbad : 4095 < s.dataAddr k) (hfit : ∀ j < k, s.dataAddr j ≤ 4095) :
    storeFrom 0 bs s =
      .next { s with mem := s.memWithBlock (bs.take k), halt := some (.dataBounds (s.dataAddr k)) } := by
  have hne : bs ≠ [] := List.length_pos_iff.mp (by omega)
  have hfitted : 4096 - s.dataAddr 0 = k ∧ max (s.dataAddr 0) 4096 = s.dataAddr k := by
    simp only [State.dataAddr] at hbad hfit ⊢
    cases k with
    | zero => omega
    | succ k =>
      have hlast := hfit k (by omega)
      omega
  rw [storeFrom_pastEnd hne (by simp only [State.dataAddr] at hbad ⊢; omega), hfitted.1, hfitted.2]
  rfl

/-- What memory holds after the bytes before byte k. -/
theorem State.memWithBlock_take_stored (hm : Memory.wf s.mem) (hk : k < bs.length)
    (hfit : ∀ j < k, s.dataAddr j ≤ 4095) :
    Memory.wf (s.memWithBlock (bs.take k)) ∧
      (∀ j, (hj : j < k) → Memory.read (s.memWithBlock (bs.take k)) (s.dataAddr j) = bs[j]) ∧
      ∀ a, (∀ j < k, a ≠ s.dataAddr j) → Memory.read (s.memWithBlock (bs.take k)) a = Memory.read s.mem a := by
  have hlen : (bs.take k).length = k := by rw [List.length_take, min_eq_left hk.le]
  have hblock := State.memWithBlock_stored hm (bs := bs.take k) (by rwa [hlen])
  refine ⟨hblock.wf, fun j hj => ?_, fun a ha => hblock.outside a (by rwa [hlen])⟩
  rw [hblock.inside j (hlen.symm ▸ hj), List.getElem_take]

end

/-- When not every offset below n is in memory, there is a first one that is not. -/
theorem State.exists_firstBad {n : Nat} (h : ¬ ∀ j < n, s.dataAddr j ≤ 4095) :
    ∃ k < n, 4095 < s.dataAddr k ∧ ∀ j < k, s.dataAddr j ≤ 4095 := by
  push Not at h
  obtain ⟨j, hj, hbad⟩ := h
  refine ⟨4096 - s.dataAddr 0, ?_, ?_, fun i hi => ?_⟩
  all_goals
    simp only [State.dataAddr] at *
    omega

end

/-! ### The bytes of the two stores -/

theorem exec_storeBcd (x : RegId) (s : State) :
    exec (.storeBcd x) s = storeFrom 0 (bcdDigits (s.reg x)) s := rfl

theorem exec_storeRegs (x : RegId) (s : State) :
    exec (.storeRegs x) s = storeFrom 0 ((regsUpTo x).map s.reg) s := rfl

theorem exec_loadRegs (x : RegId) (s : State) : exec (.loadRegs x) s = loadInto (regsUpTo x) s := rfl

@[simp] theorem length_bcdDigits (v : Byte) : (bcdDigits v).length = 3 := rfl

theorem bcdDigits_toNat (v : Byte) :
    ((bcdDigits v)[0]).toNat = v.toNat % 10 ∧ ((bcdDigits v)[1]).toNat = v.toNat / 10 % 10 ∧
      ((bcdDigits v)[2]).toNat = v.toNat / 100 := by
  have hv := v.isLt
  simp only [bcdDigits, List.getElem_cons_zero, List.getElem_cons_succ, BitVec.toNat_ofNat]
  omega

/-- Byte r of a register block is register r. -/
theorem regsUpTo_map_getElem (x : RegId) (s : State) (r : RegId) (h : r.val < ((regsUpTo x).map s.reg).length) :
    ((regsUpTo x).map s.reg)[r.val] = s.reg r := by
  simp [regsUpTo]

/-- Settles O38: the block at I is the three digits. -/
theorem storeBcdWritesDigits : Obligations.StoreBcdWritesDigits := by
  intro x s v hm hend hv
  subst hv
  have hfit : ∀ j < (bcdDigits (s.reg x)).length, s.dataAddr j ≤ 4095 := by
    simp only [length_bcdDigits, State.dataAddr] at hend ⊢
    omega
  have hblock := State.memWithBlock_stored hm hfit
  obtain ⟨h0, h1, h2⟩ := bcdDigits_toNat (s.reg x)
  refine ⟨_, (exec_storeBcd x s).trans (storeFrom_fits hfit), hblock.wf, ?ones, ?tens, ?hundreds, hblock.outside⟩
  case ones => rw [hblock.inside 0 (by simp), h0]
  case tens => rw [hblock.inside 1 (by simp), h1]
  case hundreds => rw [hblock.inside 2 (by simp), h2]

/-- Settles O39: the block at I is the registers up to VX. -/
theorem storeRegsWritesBlock : Obligations.StoreRegsWritesBlock := by
  intro x s hm hend
  have hlen : ((regsUpTo x).map s.reg).length = x.val + 1 := by simp
  have hfit : ∀ j < ((regsUpTo x).map s.reg).length, s.dataAddr j ≤ 4095 := by
    simp only [hlen, State.dataAddr] at hend ⊢
    omega
  have hblock := State.memWithBlock_stored hm hfit
  refine ⟨_, (exec_storeRegs x s).trans (storeFrom_fits hfit), hblock.wf, fun r hr => ?inside,
    fun a ha => hblock.outside a fun j hj => ha j (by omega)⟩
  case inside => rw [hblock.inside r.val (by omega), regsUpTo_map_getElem]

/-- Settles O41: the block at I is the bytes before the first one that does not fit. -/
theorem storesPastEndKeepEarlierBytes : Obligations.StoresPastEndKeepEarlierBytes := by
  intro x s k hm hbad hfit
  refine ⟨fun hkx => ?regs, fun hk3 => ?bcd⟩
  case regs =>
    have hk : k < ((regsUpTo x).map s.reg).length := by
      rw [List.length_map, length_regsUpTo]
      omega
    obtain ⟨-, hread, hkeep⟩ := State.memWithBlock_take_stored hm hk hfit
    exact ⟨_, (exec_storeRegs x s).trans (storeFrom_firstBad hk hbad hfit),
      fun r hr => (hread r.val hr).trans (regsUpTo_map_getElem x s r _), hkeep⟩
  case bcd =>
    have hk : k < (bcdDigits (s.reg x)).length := hk3
    obtain ⟨-, hread, hkeep⟩ := State.memWithBlock_take_stored hm hk hfit
    obtain ⟨h0, h1, -⟩ := bcdDigits_toNat (s.reg x)
    exact ⟨_, (exec_storeBcd x s).trans (storeFrom_firstBad hk hbad hfit),
      fun h => (congrArg BitVec.toNat (hread 0 h)).trans h0,
      fun h => (congrArg BitVec.toNat (hread 1 h)).trans h1, hkeep⟩

/-- Settles O21: the block stored at PC begins with the bytes that the fetch reads. -/
theorem storedWordIsFetchedNext : Obligations.StoredWordIsFetchedNext := by
  intro s t x hm hi hend hx hexec
  obtain ⟨m', hstore, -, hread, -⟩ := storeRegsWritesBlock x s hm hend
  rw [hstore] at hexec
  obtain rfl := Host.Outcome.next.inj hexec
  have h0 : Memory.read m' s.pc.toNat = s.reg 0 := hi ▸ hread 0 (Nat.zero_le _)
  have h1 : Memory.read m' (s.pc.toNat + 1) = s.reg 1 := hi ▸ hread 1 hx
  rw [State.fetch_ok (by rw [hi] at hend; simp only; omega), State.wordAtPc]
  simp only [h0, h1]
  rfl

/-! ### Loads -/

/-- Settles O40: each register up to VX is loaded from its own address. -/
theorem loadRegsReadsBlock : Obligations.LoadRegsReadsBlock := by
  intro x s hend
  have hfit : ∀ r ∈ regsUpTo x, s.dataAddr r.val ≤ 4095 := by
    intro r hr
    have hrx := mem_regsUpTo.mp hr
    simp only [State.dataAddr] at hend ⊢
    omega
  obtain ⟨v', hload, hv⟩ := loadInto_inBounds hfit
  refine ⟨v', hload, fun r => ?_⟩
  simp only [hv, mem_regsUpTo]

/-- The registers of a block transfer in order: those below q, then q, then the rest. -/
theorem regsUpTo_split {q x : RegId} (h : q.val ≤ x.val) :
    ∃ pre post, regsUpTo x = pre ++ q :: post ∧ ∀ r, r ∈ pre ↔ r.val < q.val := by
  have hlen : q.val < (regsUpTo x).length := by
    rw [length_regsUpTo]
    omega
  refine ⟨(List.finRange 16).take q.val, (regsUpTo x).drop (q.val + 1), ?_, ?_⟩
  · have hq : (regsUpTo x)[q.val] = q := by simp [regsUpTo]
    have hpre : (regsUpTo x).take q.val = (List.finRange 16).take q.val := by
      rw [regsUpTo, List.take_take, min_eq_left (by omega)]
    calc regsUpTo x = (regsUpTo x).take q.val ++ (regsUpTo x).drop q.val := (List.take_append_drop _ _).symm
      _ = _ := by rw [hpre, List.drop_eq_getElem_cons hlen, hq]
  · clear h hlen
    revert q
    decide

/-- Settles O42: the load stops at the first register whose address does not exist. -/
theorem loadPastEndKeepsEarlierRegisters : Obligations.LoadPastEndKeepsEarlierRegisters := by
  intro x q s hqx hbad hfit
  obtain ⟨pre, post, hsplit, hpre⟩ := regsUpTo_split hqx
  obtain ⟨v', hload, hv⟩ := loadInto_pastEnd (post := post) (fun r hr => hfit r.val ((hpre r).mp hr)) hbad
  refine ⟨v', by rw [exec_loadRegs, hsplit, hload], fun r => ?_⟩
  simp only [hv, hpre]

end Sys2Proof.Machine
end

section
/-! Proofs: the statements about draw. -/

namespace Sys2Proof.Machine

open Sys2Proof.Certificates (SpriteBit SpriteInMemory Drawn)

/-! ### Toggling a set of cells -/

/-- Some cell of P is lit. -/
def State.Lit (s : State) (P : Fin 32 → Fin 64 → Prop) : Prop := ∃ row col, P row col ∧ s.cell row col = true

/-- From s to t exactly the cells of P are toggled; VF becomes 1 when one of them was lit and is kept otherwise (R162,
R163); nothing else changes. -/
structure State.Toggled (P : Fin 32 → Fin 64 → Prop) (s t : State) : Prop where
  frame : ∃ (v' : Vector Byte 16) (fb' : Display), t = { s with v := v', fb := fb' }
  cell : ∀ row col, t.cell row col = true ↔ (s.cell row col = true ↔ ¬ P row col)
  reg : ∀ r, r ≠ regF → t.reg r = s.reg r
  hit : s.Lit P → t.reg regF = 1
  miss : ¬ s.Lit P → t.reg regF = s.reg regF

section
variable {P Q : Fin 32 → Fin 64 → Prop} {s t u : State}

theorem State.Toggled.congr (h : State.Toggled P s t) (hPQ : ∀ row col, P row col ↔ Q row col) :
    State.Toggled Q s t := by
  have hP : P = Q := funext fun row => funext fun col => propext (hPQ row col)
  exact hP ▸ h

theorem State.Toggled.refl (s : State) (hP : ∀ row col, ¬ P row col) : State.Toggled P s s where
  frame := ⟨s.v, s.fb, rfl⟩
  cell row col := by simp [hP row col]
  reg _ _ := rfl
  hit := fun ⟨row, col, h, _⟩ => absurd h (hP row col)
  miss _ := rfl

/-- A cell outside P is as it was. -/
theorem State.Toggled.cell_of_not (h : State.Toggled P s t) {row : Fin 32} {col : Fin 64} (hP : ¬ P row col) :
    t.cell row col = s.cell row col := by
  rw [Bool.eq_iff_iff, h.cell row col]
  simp [hP]

/-- Toggling first P and then Q, which have no cell in common, toggles both. -/
theorem State.Toggled.trans (h : State.Toggled P s u) (h' : State.Toggled Q u t)
    (hdisj : ∀ row col, P row col → ¬ Q row col) : State.Toggled (fun row col => P row col ∨ Q row col) s t := by
  have hQ : u.Lit Q ↔ s.Lit Q := by
    have hkeep : ∀ row col, Q row col → u.cell row col = s.cell row col := fun row col hq =>
      h.cell_of_not fun hp => hdisj row col hp hq
    constructor
    · rintro ⟨row, col, hq, hl⟩; exact ⟨row, col, hq, hkeep row col hq ▸ hl⟩
    · rintro ⟨row, col, hq, hl⟩; exact ⟨row, col, hq, (hkeep row col hq).symm ▸ hl⟩
  have hor : s.Lit (fun row col => P row col ∨ Q row col) ↔ s.Lit P ∨ s.Lit Q := by
    simp only [State.Lit, or_and_right, exists_or]
  obtain ⟨v1, fb1, rfl⟩ := h.frame
  obtain ⟨v2, fb2, rfl⟩ := h'.frame
  refine ⟨⟨v2, fb2, rfl⟩, fun row col => ?cell, fun r hr => (h'.reg r hr).trans (h.reg r hr), ?hit, ?miss⟩
  case cell =>
    rw [h'.cell row col, h.cell row col]
    have := hdisj row col
    tauto
  case hit =>
    intro hl
    by_cases hq : s.Lit Q
    · exact h'.hit (hQ.mpr hq)
    · rw [h'.miss (hQ.not.mpr hq)]
      exact h.hit ((hor.mp hl).resolve_right hq)
  case miss =>
    intro hl
    have hno := not_or.mp (hor.not.mp hl)
    exact (h'.miss (hQ.not.mpr hno.2)).trans (h.miss hno.1)

end

/-! ### Rows of a sprite -/

/-- The sprite has a set bit for this cell in one of its rows lo to hi - 1 (R160). -/
def SpriteRows (s : State) (ox oy lo hi : Nat) (row : Fin 32) (col : Fin 64) : Prop :=
  oy + lo ≤ row.val ∧ row.val < oy + hi ∧ ox ≤ col.val ∧ col.val < ox + 8 ∧
    (Memory.read s.mem (s.dataAddr (row.val - oy))).getLsbD (7 - (col.val - ox)) = true

theorem spriteRows_split {s : State} {ox oy lo mid hi : Nat} (h1 : lo ≤ mid) (h2 : mid ≤ hi) {row : Fin 32}
    {col : Fin 64} :
    SpriteRows s ox oy lo mid row col ∨ SpriteRows s ox oy mid hi row col ↔ SpriteRows s ox oy lo hi row col := by
  unfold SpriteRows
  constructor
  · rintro (⟨hlo, hhi, hbit⟩ | ⟨hlo, hhi, hbit⟩)
    · exact ⟨hlo, by omega, hbit⟩
    · exact ⟨by omega, hhi, hbit⟩
  · rintro ⟨hlo, hhi, hbit⟩
    by_cases hmid : row.val < oy + mid
    · exact .inl ⟨hlo, hmid, hbit⟩
    · exact .inr ⟨by omega, hhi, hbit⟩

/-- The cells of one sprite row, by the position of their bit. -/
theorem spriteRows_row_iff {s : State} {ox oy r : Nat} (h : oy + r < 32) (row : Fin 32) (col : Fin 64) :
    (row = ⟨oy + r, h⟩ ∧ ∃ c ∈ List.finRange 8, ox + c.val = col.val ∧
      (Memory.read s.mem (s.dataAddr r)).getLsbD (7 - c.val) = true) ↔ SpriteRows s ox oy r (r + 1) row col := by
  unfold SpriteRows
  constructor
  · rintro ⟨rfl, c, -, hc, hb⟩
    have hoff : col.val - ox = c.val := by omega
    simp only [Nat.add_sub_cancel_left, hoff]
    exact ⟨le_refl _, by omega, by omega, by omega, hb⟩
  · rintro ⟨hlo, hhi, hleft, hright, hb⟩
    have hrow : row.val = oy + r := by omega
    rw [hrow, Nat.add_sub_cancel_left] at hb
    exact ⟨Fin.ext hrow, ⟨col.val - ox, by omega⟩, List.mem_finRange _, by simp only; omega, hb⟩

/-- Drawing the bits of one sprite row toggles the cells under its set bits. -/
theorem toggled_drawBits (ox oy r : Nat) (s : State) (h : oy + r < 32) :
    State.Toggled (SpriteRows s ox oy r (r + 1)) s
      (drawBits ⟨oy + r, h⟩ ox (Memory.read s.mem (s.dataAddr r)) (List.finRange 8) s) := by
  obtain ⟨hcell, hreg, hframe⟩ := drawBits_spec ⟨oy + r, h⟩ ox (Memory.read s.mem (s.dataAddr r)) (List.finRange 8) s
    (by decide)
  have hbit := spriteRows_row_iff (s := s) (ox := ox) h
  have hlit : (∃ c ∈ List.finRange 8, ∃ hc : ox + c.val < 64,
      (Memory.read s.mem (s.dataAddr r)).getLsbD (7 - c.val) = true ∧ s.cell ⟨oy + r, h⟩ ⟨ox + c.val, hc⟩ = true) ↔
        s.Lit (SpriteRows s ox oy r (r + 1)) := by
    constructor
    · rintro ⟨c, hmem, hc, hb, hl⟩
      exact ⟨_, _, (hbit _ ⟨ox + c.val, hc⟩).mp ⟨rfl, c, hmem, rfl, hb⟩, hl⟩
    · rintro ⟨row, col, hP, hl⟩
      obtain ⟨rfl, c, hmem, hc, hb⟩ := (hbit row col).mpr hP
      have hlt : ox + c.val < 64 := hc ▸ col.isLt
      obtain rfl : col = ⟨ox + c.val, hlt⟩ := Fin.ext hc.symm
      exact ⟨c, hmem, hlt, hb, hl⟩
  refine ⟨hframe, fun row col => ?cell, fun q hq => ?reg, fun hl => ?hit, fun hl => ?miss⟩
  case cell =>
    by_cases hP : SpriteRows s ox oy r (r + 1) row col
    · rw [hcell, decide_eq_true ((hbit row col).mpr hP)]
      simp [hP]
    · rw [hcell, decide_eq_false ((hbit row col).not.mpr hP)]
      simp [hP]
  case reg => rw [hreg, if_neg fun hc => hq hc.1]
  case hit => rw [hreg, if_pos ⟨rfl, hlit.mpr hl⟩]
  case miss => rw [hreg, if_neg fun hc => hl (hlit.mp hc.2)]

theorem drawRows_clipped {ox oy n r : Nat} {s : State} (h : 32 ≤ oy + r) : drawRows ox oy n r s = .next s := by
  cases n with
  | zero => rfl
  | succ n => rw [drawRows, dif_neg (by omega)]

theorem drawRows_row {ox oy n r : Nat} {s : State} (h : oy + r < 32) (hr : s.dataAddr r ≤ 4095) :
    drawRows ox oy (n + 1) r s = drawRows ox oy n (r + 1)
      (drawBits ⟨oy + r, h⟩ ox (Memory.read s.mem (s.dataAddr r)) (List.finRange 8) s) := by
  rw [drawRows, dif_pos h, State.memRead_ok hr, State.attempt_ok]

theorem drawRows_bad {ox oy n r : Nat} {s : State} (h : oy + r < 32) (hr : 4095 < s.dataAddr r) :
    drawRows ox oy (n + 1) r s = .next { s with halt := some (.dataBounds (s.dataAddr r)) } := by
  rw [drawRows, dif_pos h, State.memRead_error hr, State.attempt_error, State.raise_eq]

/-- Rows r to r + a - 1, whose unclipped ones are in memory, are drawn, and the draw goes on from what they leave. -/
theorem drawRows_toggled (ox oy : Nat) : ∀ (a r : Nat) (s : State),
    (∀ q, r ≤ q → q < r + a → oy + q < 32 → s.dataAddr q ≤ 4095) →
    ∃ t, State.Toggled (SpriteRows s ox oy r (r + a)) s t ∧
      ∀ b, drawRows ox oy (a + b) r s = drawRows ox oy b (r + a) t
  | 0, r, s, _ => by
    refine ⟨s, State.Toggled.refl s fun row col h => ?_, fun b => by rw [Nat.zero_add, Nat.add_zero]⟩
    have hlo := h.1
    have hhi := h.2.1
    omega
  | a + 1, r, s, hmem => by
    by_cases hclip : oy + r < 32
    · have hrow := toggled_drawBits ox oy r s hclip
      have hstep := fun n => drawRows_row (ox := ox) (n := n) hclip (hmem r (le_refl r) (by omega) hclip)
      obtain ⟨v1, fb1, hu⟩ := hrow.frame
      rw [hu] at hrow hstep
      obtain ⟨t, ht, hrest⟩ := drawRows_toggled ox oy a (r + 1) { s with v := v1, fb := fb1 }
        fun q hq hqa hq32 => hmem q (by omega) (by omega) hq32
      refine ⟨t, ((hrow.trans ht ?_).congr fun row col => ?_), fun b => ?_⟩
      · intro row col hP hQ
        have hhi := hP.2.1
        have hlo := hQ.1
        omega
      · rw [show r + (a + 1) = r + 1 + a by omega]
        exact spriteRows_split (by omega) (by omega)
      · rw [show a + 1 + b = a + b + 1 by omega, show r + (a + 1) = r + 1 + a by omega, hstep, hrest]
    · refine ⟨s, State.Toggled.refl s fun row col h => ?_, fun b => ?_⟩
      · have hlo := h.1
        have hrow := row.isLt
        omega
      · rw [drawRows_clipped (by omega), drawRows_clipped (by omega)]

/-! ### Draw -/

/-- Toggling the sprite's cells after VF is cleared is what R163 says of a draw. -/
theorem drawn_of_toggled {s t : State} {ox oy n : Nat}
    (h : State.Toggled (SpriteRows (s.setFlag false) ox oy 0 n) (s.setFlag false) t) : Drawn s t ox oy n := by
  obtain ⟨v', fb', hframe⟩ := h.frame
  have hflag : t.reg regF = 1 ↔ (s.setFlag false).Lit (SpriteRows (s.setFlag false) ox oy 0 n) := by
    refine ⟨fun h1 => ?_, h.hit⟩
    by_contra hl
    rw [h.miss hl, State.reg_setFlag, if_pos rfl] at h1
    cases h1
  refine ⟨v', fb', hframe, h.cell, fun r hr => ?reg, ?bit, hflag⟩
  case reg => rw [h.reg r hr, State.reg_setFlag, if_neg hr]
  case bit =>
    by_cases hl : (s.setFlag false).Lit (SpriteRows (s.setFlag false) ox oy 0 n)
    · exact .inr (h.hit hl)
    · left
      rw [h.miss hl, State.reg_setFlag, if_pos rfl]
      rfl

theorem exec_draw (x y : RegId) (n : Fin 16) (s : State) :
    exec (.draw x y n) s = drawRows (s.originCol x) (s.originRow y) n.val 0 (s.setFlag false) := rfl

/-- The first k rows of a draw, when they are in memory: they are drawn, and the draw goes on with row k. -/
theorem exec_draw_rows (x y : RegId) (n : Fin 16) (s : State) {k : Nat} (hk : k ≤ n.val)
    (hmem : SpriteInMemory s (s.originRow y) k) :
    ∃ t, Drawn s t (s.originCol x) (s.originRow y) k ∧
      exec (.draw x y n) s = drawRows (s.originCol x) (s.originRow y) (n.val - k) k t := by
  obtain ⟨t, ht, hrest⟩ := drawRows_toggled (s.originCol x) (s.originRow y) k 0 (s.setFlag false)
    fun q _ hq hq32 => hmem q (by omega) hq32
  rw [Nat.zero_add] at ht
  refine ⟨t, drawn_of_toggled ht, ?_⟩
  have hdraw := hrest (n.val - k)
  rw [Nat.add_sub_cancel' hk, Nat.zero_add] at hdraw
  exact (exec_draw x y n s).trans hdraw

/-- Settles O44: all n rows are drawn and none is left. -/
theorem drawTogglesSpriteCells : Obligations.DrawTogglesSpriteCells := by
  intro x y n s hmem
  obtain ⟨t, hdrawn, hexec⟩ := exec_draw_rows x y n s (le_refl _) hmem
  rw [Nat.sub_self] at hexec
  exact ⟨t, hexec, hdrawn⟩

/-- Settles O45: rows 0 to k - 1 are drawn, and the read of row k raises. -/
theorem drawPastEndKeepsEarlierRows : Obligations.DrawPastEndKeepsEarlierRows := by
  intro x y n s k hk hclip hbad hmem
  obtain ⟨t, hdrawn, hexec⟩ := exec_draw_rows x y n s hk.le hmem
  refine ⟨t, ?_, hdrawn⟩
  obtain ⟨v', fb', rfl, -⟩ := hdrawn
  rw [hexec, show n.val - k = n.val - k - 1 + 1 by omega]
  exact drawRows_bad hclip hbad

/-- Settles O46: the first draw leaves the sprite and its origin as they were, so the second toggles the same cells
back, and a cell that it finds lit is one that was clear. -/
theorem drawTwiceRestoresDisplay : Obligations.DrawTwiceRestoresDisplay := by
  intro x y n s hx hy hmem
  obtain ⟨t, hexec, hdrawn⟩ := drawTogglesSpriteCells x y n s hmem
  obtain ⟨v', fb', ht, hcell, hreg, -⟩ := hdrawn
  have hcol : t.originCol x = s.originCol x := congrArg (BitVec.toNat · % 64) (hreg x hx)
  have hrow : t.originRow y = s.originRow y := congrArg (BitVec.toNat · % 32) (hreg y hy)
  have hmem' : SpriteInMemory t (t.originRow y) n.val := by
    rw [hrow, ht]
    exact hmem
  have hbit : ∀ row col, SpriteBit t (s.originCol x) (s.originRow y) n.val row col ↔
      SpriteBit s (s.originCol x) (s.originRow y) n.val row col := by
    rw [ht]
    exact fun _ _ => Iff.rfl
  obtain ⟨u, hexec', -, -, -, hcell', -, -, hflag⟩ := drawTogglesSpriteCells x y n t hmem'
  rw [hcol, hrow] at hcell' hflag
  simp only [hbit] at hcell' hflag
  refine ⟨t, u, hexec, hexec', fun row col => ?restored, hflag.trans ?flag⟩
  case restored =>
    rw [Bool.eq_iff_iff, hcell', hcell]
    tauto
  case flag =>
    refine exists_congr fun row => exists_congr fun col => and_congr_right fun hset => ?_
    rw [hcell, ← Bool.not_eq_true]
    tauto

end Sys2Proof.Machine
end

section
/-! Proofs: what each instruction can do, said once, and the statements over all instructions that follow from it. -/

namespace Sys2Proof.Machine

open Sys2Proof.Certificates (SpriteInMemory RegsBecome)

/-! ### The effect of an instruction -/

/-- An instruction that touches n bytes at I ends in u, or in u halted at the first of them that does not exist. -/
def State.EndsAs (s : State) (n : Nat) (u t : State) : Prop :=
  t = u ∨ ∃ k < n, 4095 < s.dataAddr k ∧ t = { u with halt := some (.dataBounds (s.dataAddr k)) }

/-- A store of n bytes at I changes memory only there. -/
def State.StoresAt (s : State) (n : Nat) (t : State) : Prop :=
  ∃ m' : Memory, s.EndsAs n { s with mem := m' } t ∧
    (Memory.wf s.mem → Memory.wf m' ∧
      ∀ a, (∀ k < n, a ≠ s.dataAddr k) → Memory.read m' a = Memory.read s.mem a)

/-- VX numbers a key line and PC becomes `f` of its level, or the number is above 15 and the machine halts. -/
def State.TestsKey (s : State) (x : RegId) (f : Bool → Addr) (t : State) : Prop :=
  (∃ k : Fin 16, (s.reg x).toNat = k.val ∧ t = s.setPc (f (s.key.get k))) ∨
  (15 < (s.reg x).toNat ∧ t = { s with halt := some (.keyBounds (s.reg x).toNat) })

/-- What an instruction can do to the state, as exactly as the statements over all instructions need it: PC, SP, the
stack and HALT exactly, the other fields by who writes them. -/
def Effect (i : Instr) (s t : State) : Prop :=
  match i with
  | .clearScreen => t = { s with fb := Display.clear }
  | .ret =>
    (∃ k : Fin 16, k.val + 1 = s.sp.val ∧ t = { s with sp := k.castSucc, pc := s.stack.get k }) ∨
    (s.sp.val = 0 ∧ t = { s with halt := some .stackUnderflow })
  | .jump nnn => t = s.setPc (addrLit nnn)
  | .call nnn =>
    (∃ h : s.sp.val < 16, t = { s with
      stack := s.stack.set s.sp.val s.pc h, sp := ⟨s.sp.val + 1, Nat.succ_lt_succ h⟩, pc := addrLit nnn }) ∨
    (s.sp.val = 16 ∧ t = { s with halt := some .stackOverflow })
  | .skipEqImm x nn => t = s.setPc (if s.reg x = nn then s.pc + 2 else s.pc)
  | .skipNeImm x nn => t = s.setPc (if s.reg x = nn then s.pc else s.pc + 2)
  | .skipEqReg x y => t = s.setPc (if s.reg x = s.reg y then s.pc + 2 else s.pc)
  | .skipNeReg x y => t = s.setPc (if s.reg x = s.reg y then s.pc else s.pc + 2)
  | .setImm x _ | .addImm x _ | .copy x _ | .orReg x _ | .andReg x _ | .xorReg x _ | .getDelay x =>
    ∃ b, t = s.setReg x b
  | .addReg _ _ | .sub _ _ | .subn _ _ | .shr _ _ | .shl _ _ => ∃ v', t = { s with v := v' }
  | .loadIndex _ | .fontAddress _ => ∃ a, t = s.setI a
  | .addIndex _ => ∃ a v', t = { s with i := a, v := v' }
  | .jumpOffset x nnn => t = s.setPc ((s.reg (s.jumpReg x)).setWidth 16 + addrLit nnn)
  | .random x _ => ∃ b, t = s.drawRand.2.setReg x b
  | .draw _ _ n => ∃ v' fb', s.EndsAs n.val { s with v := v', fb := fb' } t
  | .keyPressed x => s.TestsKey x (fun down => if down then s.pc + 2 else s.pc) t
  | .keyNotPressed x => s.TestsKey x (fun down => if down then s.pc else s.pc + 2) t
  | .setDelay x => t = { s with dt := s.reg x }
  | .setSound x => t = { s with st := s.reg x }
  | .waitKey x =>
    ((∃ k : Fin 16, s.key.get k = true) ∧ ∃ b, t = s.setReg x b) ∨
    ((∀ k : Fin 16, s.key.get k = false) ∧ t = s.setPc (s.pc - 2))
  | .storeBcd _ => s.StoresAt 3 t
  | .storeRegs x => s.StoresAt (x.val + 1) t
  | .loadRegs x =>
    ∃ v' : Vector Byte 16, s.EndsAs (x.val + 1) { s with v := v' } t ∧ ∀ r : RegId, x.val < r.val → v'.get r = s.reg r

theorem exec_ret_effect (s : State) : ∃ t, exec .ret s = .next t ∧ Effect .ret s t := by
  rcases Nat.eq_zero_or_pos s.sp.val with h | h
  · exact ⟨_, exec_ret_empty h, .inr ⟨h, rfl⟩⟩
  · have hk : (⟨s.sp.val - 1, by omega⟩ : Fin 16).val + 1 = s.sp.val := by
      simp only
      omega
    exact ⟨_, exec_ret_pop hk, .inl ⟨_, hk, rfl⟩⟩

theorem exec_call_effect (nnn : BitVec 12) (s : State) :
    ∃ t, exec (.call nnn) s = .next t ∧ Effect (.call nnn) s t := by
  by_cases h : s.sp.val < 16
  · exact ⟨_, exec_call_push nnn h, .inl ⟨h, rfl⟩⟩
  · have hfull : s.sp.val = 16 := by omega
    exact ⟨_, exec_call_full nnn hfull, .inr ⟨hfull, rfl⟩⟩

theorem exec_keyPressed_effect (x : RegId) (s : State) :
    ∃ t, exec (.keyPressed x) s = .next t ∧ Effect (.keyPressed x) s t := by
  by_cases h : 15 < (s.reg x).toNat
  · exact ⟨_, exec_keyPressed_bounds h, .inr ⟨h, rfl⟩⟩
  · have hk : (s.reg x).toNat = (⟨(s.reg x).toNat, by omega⟩ : Fin 16).val := rfl
    exact ⟨_, exec_keyPressed_line hk, .inl ⟨_, hk, State.skipIf_eq s _⟩⟩

theorem exec_keyNotPressed_effect (x : RegId) (s : State) :
    ∃ t, exec (.keyNotPressed x) s = .next t ∧ Effect (.keyNotPressed x) s t := by
  by_cases h : 15 < (s.reg x).toNat
  · exact ⟨_, exec_keyNotPressed_bounds h, .inr ⟨h, rfl⟩⟩
  · have hk : (s.reg x).toNat = (⟨(s.reg x).toNat, by omega⟩ : Fin 16).val := rfl
    exact ⟨_, exec_keyNotPressed_line hk, .inl ⟨_, hk, State.skipIf_not s _⟩⟩

theorem exec_waitKey_effect (x : RegId) (s : State) :
    ∃ t, exec (.waitKey x) s = .next t ∧ Effect (.waitKey x) s t := by
  cases h : s.firstKey with
  | some k => exact ⟨_, exec_waitKey_some h, .inl ⟨⟨k, (State.firstKey_eq_some.mp h).1⟩, _, rfl⟩⟩
  | none => exact ⟨_, exec_waitKey_none h, .inr ⟨State.firstKey_eq_none.mp h, rfl⟩⟩

theorem storeFrom_effect (bs : List Byte) (s : State) : ∃ t, storeFrom 0 bs s = .next t ∧ s.StoresAt bs.length t := by
  by_cases hfit : ∀ j < bs.length, s.dataAddr j ≤ 4095
  · refine ⟨_, storeFrom_fits hfit, _, .inl rfl, fun hm => ?_⟩
    have hblock := State.memWithBlock_stored hm hfit
    exact ⟨hblock.wf, hblock.outside⟩
  · obtain ⟨k, hk, hbad, hfit'⟩ := State.exists_firstBad hfit
    refine ⟨_, storeFrom_firstBad hk hbad hfit', s.memWithBlock (bs.take k), .inr ⟨k, hk, hbad, rfl⟩, fun hm => ?_⟩
    obtain ⟨hwf, -, hkeep⟩ := State.memWithBlock_take_stored hm hk hfit'
    exact ⟨hwf, fun a ha => hkeep a fun j hj => ha j (by omega)⟩

theorem exec_loadRegs_effect (x : RegId) (s : State) :
    ∃ t, exec (.loadRegs x) s = .next t ∧ Effect (.loadRegs x) s t := by
  by_cases hfit : ∀ j < x.val + 1, s.dataAddr j ≤ 4095
  · obtain ⟨v', hload, hv⟩ := loadRegsReadsBlock x s (hfit x.val (by omega))
    exact ⟨_, hload, v', .inl rfl, fun r hr => (hv r).trans (if_neg (by omega))⟩
  · obtain ⟨k, hk, hbad, hfit'⟩ := State.exists_firstBad hfit
    have hqx : (⟨k, by omega⟩ : RegId).val ≤ x.val := by
      simp only
      omega
    obtain ⟨v', hload, hv⟩ := loadPastEndKeepsEarlierRegisters x ⟨k, by omega⟩ s hqx hbad hfit'
    exact ⟨_, hload, v', .inr ⟨k, hk, hbad, rfl⟩, fun r hr => (hv r).trans (if_neg (by omega))⟩

/-- When a sprite is not all in memory, a first unclipped row of it is not. -/
theorem exists_firstBadRow {s : State} {oy n : Nat} (h : ¬ SpriteInMemory s oy n) :
    ∃ k < n, oy + k < 32 ∧ 4095 < s.dataAddr k ∧ SpriteInMemory s oy k := by
  unfold SpriteInMemory at *
  push Not at h
  obtain ⟨r, hr, hclip, hbad⟩ := h
  obtain ⟨k, hk, hbad', hfit⟩ :=
    State.exists_firstBad (s := s) (n := r + 1) fun hall => absurd (hall r (by omega)) (by omega)
  exact ⟨k, by omega, by omega, hbad', fun j hj _ => hfit j hj⟩

theorem exec_draw_effect (x y : RegId) (n : Fin 16) (s : State) :
    ∃ t, exec (.draw x y n) s = .next t ∧ Effect (.draw x y n) s t := by
  by_cases hmem : SpriteInMemory s (s.originRow y) n.val
  · obtain ⟨t, hexec, v', fb', ht, -⟩ := drawTogglesSpriteCells x y n s hmem
    exact ⟨t, hexec, v', fb', .inl ht⟩
  · obtain ⟨k, hk, hclip, hbad, hmem'⟩ := exists_firstBadRow hmem
    obtain ⟨t, hexec, v', fb', rfl, -⟩ := drawPastEndKeepsEarlierRows x y n s k hk hclip hbad hmem'
    exact ⟨_, hexec, v', fb', .inr ⟨k, hk, hbad, rfl⟩⟩

/-- An outcome that is known in its registers is a next state that differs in them only. -/
theorem regsBecome_next {o : Host.Outcome State Fault Refusal} {s : State} {f : RegId → Byte} (h : RegsBecome o s f) :
    ∃ t, o = .next t ∧ ∃ v', t = { s with v := v' } := by
  obtain ⟨v', ho, -⟩ := h
  exact ⟨_, ho, v', rfl⟩

/-- Every instruction has a next state, and it is one that its effect allows. -/
theorem exec_effect (i : Instr) (s : State) : ∃ t, exec i s = .next t ∧ Effect i s t := by
  cases i with
  | clearScreen => exact ⟨_, exec_clearScreen s, rfl⟩
  | ret => exact exec_ret_effect s
  | jump nnn => exact ⟨_, exec_jump nnn s, rfl⟩
  | call nnn => exact exec_call_effect nnn s
  | skipEqImm x nn => exact ⟨_, exec_skipEqImm x nn s, State.skipIf_beq s _ _⟩
  | skipNeImm x nn => exact ⟨_, exec_skipNeImm x nn s, State.skipIf_bne s _ _⟩
  | skipEqReg x y => exact ⟨_, exec_skipEqReg x y s, State.skipIf_beq s _ _⟩
  | skipNeReg x y => exact ⟨_, exec_skipNeReg x y s, State.skipIf_bne s _ _⟩
  | setImm x nn => exact ⟨_, exec_setImm x nn s, _, rfl⟩
  | addImm x nn => exact ⟨_, exec_addImm x nn s, _, rfl⟩
  | copy x y => exact ⟨_, exec_copy x y s, _, rfl⟩
  | orReg x y => exact ⟨_, exec_orReg x y s, _, rfl⟩
  | andReg x y => exact ⟨_, exec_andReg x y s, _, rfl⟩
  | xorReg x y => exact ⟨_, exec_xorReg x y s, _, rfl⟩
  | addReg x y => exact regsBecome_next (addSetsCarry x y s)
  | sub x y => exact regsBecome_next (subtractSetsNoBorrow x y s).1
  | subn x y => exact regsBecome_next (subtractSetsNoBorrow x y s).2
  | shr x y => exact regsBecome_next (shiftsSetShiftedOutBit x y s _ rfl).1
  | shl x y => exact regsBecome_next (shiftsSetShiftedOutBit x y s _ rfl).2
  | loadIndex nnn => exact ⟨_, exec_loadIndex nnn s, _, rfl⟩
  | jumpOffset x nnn => exact ⟨_, exec_jumpOffset x nnn s, rfl⟩
  | random x nn => exact ⟨_, exec_random x nn s, _, rfl⟩
  | draw x y n => exact exec_draw_effect x y n s
  | keyPressed x => exact exec_keyPressed_effect x s
  | keyNotPressed x => exact exec_keyNotPressed_effect x s
  | getDelay x => exact ⟨_, exec_getDelay x s, _, rfl⟩
  | setDelay x => exact ⟨_, exec_setDelay x s, rfl⟩
  | setSound x => exact ⟨_, exec_setSound x s, rfl⟩
  | addIndex x => exact ⟨_, exec_addIndex x s, _, _, rfl⟩
  | waitKey x => exact exec_waitKey_effect x s
  | fontAddress x => exact ⟨_, exec_fontAddress x s, _, rfl⟩
  | storeBcd x => rw [exec_storeBcd]; exact storeFrom_effect (bcdDigits (s.reg x)) s
  | storeRegs x =>
    rw [exec_storeRegs]
    have h := storeFrom_effect ((regsUpTo x).map s.reg) s
    rwa [List.length_map, length_regsUpTo] at h
  | loadRegs x => exact exec_loadRegs_effect x s

/-- The next state of an instruction is one that its effect allows. -/
theorem effect_of_exec {i : Instr} {s t : State} (h : exec i s = .next t) : Effect i s t := by
  obtain ⟨u, hu, heffect⟩ := exec_effect i s
  obtain rfl := Host.Outcome.next.inj (h.symm.trans hu)
  exact heffect

/-- Settles O12: every instruction has a next state, and a step that can run leads to one in each of its branches. -/
theorem everyInstructionHasNextState : Obligations.EveryInstructionHasNextState := by
  have hexec : ∀ (i : Instr) (s : State), ∃ t, exec i s = .next t := by
    intro i s
    obtain ⟨t, ht, -⟩ := exec_effect i s
    exact ⟨t, ht⟩
  refine ⟨hexec, fun s hh => ?_⟩
  by_cases hp : s.pc.toNat + 1 ≤ 4095
  · cases hd : decode s.wordAtPc with
    | ok i =>
      obtain ⟨t, ht⟩ := hexec i (s.setPc (s.pc + 2))
      exact ⟨t, (step_of_decode_ok hh hp hd).trans ht⟩
    | error r => exact ⟨_, step_of_unknown hh hp hd⟩
  · exact ⟨_, step_of_fetchBounds hh (by omega)⟩

/-! ### Which fields an instruction writes -/

/-- The fields of the state that some instruction writes: all but the key lines and the quirk switches. -/
inductive Field where
  | v | i | pc | sp | stack | dt | st | fb | mem | halt | draws

/-- The fields that an instruction may write. -/
def instrWrites (i : Instr) : List Field :=
  match i with
  | .clearScreen => [.fb]
  | .ret => [.sp, .pc, .halt]
  | .call _ => [.stack, .sp, .pc, .halt]
  | .jump _ | .jumpOffset _ _ | .skipEqImm _ _ | .skipNeImm _ _ | .skipEqReg _ _ | .skipNeReg _ _ => [.pc]
  | .setImm _ _ | .addImm _ _ | .copy _ _ | .orReg _ _ | .andReg _ _ | .xorReg _ _ | .getDelay _
  | .addReg _ _ | .sub _ _ | .subn _ _ | .shr _ _ | .shl _ _ => [.v]
  | .loadIndex _ | .fontAddress _ => [.i]
  | .addIndex _ => [.i, .v]
  | .random _ _ => [.v, .draws]
  | .draw _ _ _ => [.v, .fb, .halt]
  | .keyPressed _ | .keyNotPressed _ => [.pc, .halt]
  | .setDelay _ => [.dt]
  | .setSound _ => [.st]
  | .waitKey _ => [.v, .pc]
  | .storeBcd _ | .storeRegs _ => [.mem, .halt]
  | .loadRegs _ => [.v, .halt]

/-- t differs from s at most in the named fields. -/
structure State.Frame (fs : List Field) (s t : State) : Prop where
  v : .v ∉ fs → t.v = s.v
  i : .i ∉ fs → t.i = s.i
  pc : .pc ∉ fs → t.pc = s.pc
  sp : .sp ∉ fs → t.sp = s.sp
  stack : .stack ∉ fs → t.stack = s.stack
  dt : .dt ∉ fs → t.dt = s.dt
  st : .st ∉ fs → t.st = s.st
  fb : .fb ∉ fs → t.fb = s.fb
  mem : .mem ∉ fs → t.mem = s.mem
  halt : .halt ∉ fs → t.halt = s.halt
  draws : .draws ∉ fs → t.draws = s.draws
  key : t.key = s.key
  cfg : t.cfg = s.cfg

/-- An instruction that touches bytes at I writes what it writes when it completes, and HALT when it does not. -/
theorem frame_of_endsAs {fs : List Field} {s u t : State} {n : Nat} (hu : State.Frame fs s u) (hfs : .halt ∈ fs)
    (h : s.EndsAs n u t) : State.Frame fs s t := by
  rcases h with rfl | ⟨k, -, -, rfl⟩
  · exact hu
  · exact ⟨hu.v, hu.i, hu.pc, hu.sp, hu.stack, hu.dt, hu.st, hu.fb, hu.mem, fun hno => absurd hfs hno, hu.draws, hu.key,
      hu.cfg⟩

/-- An instruction changes only the fields it may write, and never a key line or a switch. -/
theorem frame_of_effect {i : Instr} {s t : State} (h : Effect i s t) : State.Frame (instrWrites i) s t := by
  cases i
  case clearScreen | jump | jumpOffset | skipEqImm | skipNeImm | skipEqReg | skipNeReg | setDelay | setSound =>
    obtain rfl := h
    constructor <;> simp [instrWrites]
  case setImm | addImm | copy | orReg | andReg | xorReg | addReg | sub | subn | shr | shl | getDelay | loadIndex
      | fontAddress | random =>
    obtain ⟨_, rfl⟩ := h
    constructor <;> simp [instrWrites]
  case addIndex =>
    obtain ⟨_, _, rfl⟩ := h
    constructor <;> simp [instrWrites]
  case waitKey =>
    obtain ⟨-, _, rfl⟩ | ⟨-, rfl⟩ := h
    all_goals constructor <;> simp [instrWrites]
  case call =>
    obtain ⟨_, rfl⟩ | ⟨-, rfl⟩ := h
    all_goals constructor <;> simp [instrWrites]
  case ret | keyPressed | keyNotPressed =>
    obtain ⟨_, -, rfl⟩ | ⟨-, rfl⟩ := h
    all_goals constructor <;> simp [instrWrites]
  case draw =>
    obtain ⟨_, _, hends⟩ := h
    exact frame_of_endsAs (by constructor <;> simp [instrWrites]) (by simp [instrWrites]) hends
  case storeBcd | storeRegs | loadRegs =>
    obtain ⟨_, hends, -⟩ := h
    exact frame_of_endsAs (by constructor <;> simp [instrWrites]) (by simp [instrWrites]) hends

theorem frame_of_exec {i : Instr} {s t : State} (h : exec i s = .next t) : State.Frame (instrWrites i) s t :=
  frame_of_effect (effect_of_exec h)

/-- Settles O57: the key lines and the switches are in the frame of every instruction. -/
theorem noInstructionWritesKeysOrSwitches : Obligations.NoInstructionWritesKeysOrSwitches :=
  fun _ _ _ h => ⟨(frame_of_exec h).key, (frame_of_exec h).cfg⟩

/-! ### Who writes a field -/

section
variable {i : Instr}

theorem writes_i (h : .i ∈ instrWrites i) :
    (∃ nnn, i = .loadIndex nnn) ∨ (∃ x, i = .addIndex x) ∨ (∃ x, i = .fontAddress x) := by
  cases i <;> simp [instrWrites] at h ⊢

theorem writes_sp (h : .sp ∈ instrWrites i) : (∃ nnn, i = .call nnn) ∨ i = .ret := by
  cases i <;> simp [instrWrites] at h ⊢

theorem writes_stack (h : .stack ∈ instrWrites i) : ∃ nnn, i = .call nnn := by
  cases i <;> simp [instrWrites] at h ⊢

theorem writes_dt (h : .dt ∈ instrWrites i) : ∃ x, i = .setDelay x := by
  cases i <;> simp [instrWrites] at h ⊢

theorem writes_st (h : .st ∈ instrWrites i) : ∃ x, i = .setSound x := by
  cases i <;> simp [instrWrites] at h ⊢

theorem writes_fb (h : .fb ∈ instrWrites i) : i = .clearScreen ∨ ∃ x y n, i = .draw x y n := by
  cases i <;> simp [instrWrites] at h ⊢

theorem writes_draws (h : .draws ∈ instrWrites i) : ∃ x nn, i = .random x nn := by
  cases i <;> simp [instrWrites] at h ⊢

theorem writes_mem (h : .mem ∈ instrWrites i) : (∃ x, i = .storeBcd x) ∨ ∃ x, i = .storeRegs x := by
  cases i <;> simp [instrWrites] at h ⊢

end

/-- Settles O55: I is outside the frame of three instructions only. -/
theorem onlyIndexInstructionsWriteIndex : Obligations.OnlyIndexInstructionsWriteIndex :=
  fun _ _ _ h hi => writes_i (by_contra fun hno => hi ((frame_of_exec h).i hno))

/-- Settles O58: each field is outside the frame of its writers only. -/
theorem writersOfOtherState : Obligations.WritersOfOtherState := by
  intro i s t h
  have hframe := frame_of_exec h
  exact ⟨fun hne => writes_sp (by_contra fun hno => hne (hframe.sp hno)),
    fun hne => writes_stack (by_contra fun hno => hne (hframe.stack hno)),
    fun hne => writes_dt (by_contra fun hno => hne (hframe.dt hno)),
    fun hne => writes_st (by_contra fun hno => hne (hframe.st hno)),
    fun hne => writes_fb (by_contra fun hno => hne (hframe.fb hno)),
    fun hne => writes_draws (by_contra fun hno => hne (hframe.draws hno))⟩

/-! ### Memory -/

/-- The memory of a store, completed or halted, is canonical and changed at I to I + n - 1 only. -/
theorem State.StoresAt.mem {s t : State} {n : Nat} (h : s.StoresAt n t) (hm : Memory.wf s.mem) :
    Memory.wf t.mem ∧ ∀ a, (∀ k < n, a ≠ s.dataAddr k) → Memory.read t.mem a = Memory.read s.mem a := by
  obtain ⟨m', rfl | ⟨k, -, -, rfl⟩, hmem⟩ := h
  · exact hmem hm
  · exact hmem hm

/-- Every instruction keeps memory canonical and every byte outside I to I + 15. -/
theorem mem_of_exec {i : Instr} {s t : State} (hm : Memory.wf s.mem) (h : exec i s = .next t) :
    Memory.wf t.mem ∧ ∀ a, (∀ k < 16, a ≠ s.dataAddr k) → Memory.read t.mem a = Memory.read s.mem a := by
  by_cases hw : .mem ∈ instrWrites i
  · have hstore : ∃ n ≤ 16, s.StoresAt n t := by
      rcases writes_mem hw with ⟨x, rfl⟩ | ⟨x, rfl⟩
      · exact ⟨3, by decide, effect_of_exec h⟩
      · exact ⟨x.val + 1, x.isLt, effect_of_exec h⟩
    obtain ⟨n, hn, hstore⟩ := hstore
    obtain ⟨hwf, hkeep⟩ := hstore.mem hm
    exact ⟨hwf, fun a ha => hkeep a fun k hk => ha k (by omega)⟩
  · rw [(frame_of_exec h).mem hw]
    exact ⟨hm, fun _ _ => rfl⟩

/-- Settles O54: memory is outside the frame of the two stores only, and they store at most 16 bytes at I. -/
theorem onlyStoresWriteMemory : Obligations.OnlyStoresWriteMemory := by
  intro i s t hm h
  refine ⟨fun hno => (frame_of_exec h).mem fun hw => ?_, (mem_of_exec hm h).2⟩
  rcases writes_mem hw with ⟨x, hx⟩ | ⟨x, hx⟩
  · exact hno.1 x hx
  · exact hno.2 x hx

/-! ### VF -/

/-- A register write that changes VF names it. -/
theorem eq_regF_of_reg_setReg_ne {s : State} {x : RegId} {b : Byte} (h : (s.setReg x b).reg regF ≠ s.reg regF) :
    x = regF := by
  by_contra hx
  exact h ((State.reg_setReg s x regF b).trans (if_neg fun e => hx e.symm))

/-- Settles O56: an instruction that may write registers is a flag writer or names the register it writes. -/
theorem flagRegisterWriters : Obligations.FlagRegisterWriters := by
  intro i s t h hne
  have heffect := effect_of_exec h
  have hw : .v ∈ instrWrites i := by
    by_contra hno
    exact hne (congrArg (·.get regF) ((frame_of_exec h).v hno))
  cases i
  case addReg x y | sub x y | subn x y | shr x y | shl x y => exact .inl ⟨x, y, by simp⟩
  case draw x y n => exact .inr (.inl ⟨x, y, n, rfl⟩)
  case addIndex x => exact .inr (.inr (.inl ⟨x, rfl⟩))
  case setImm x nn | addImm x nn =>
    obtain ⟨b, rfl⟩ := heffect
    obtain rfl := eq_regF_of_reg_setReg_ne hne
    exact .inr (.inr (.inr (.inl ⟨nn, by simp⟩)))
  case random x nn =>
    obtain ⟨b, rfl⟩ := heffect
    obtain rfl := eq_regF_of_reg_setReg_ne (s := s.drawRand.2) hne
    exact .inr (.inr (.inr (.inl ⟨nn, by simp⟩)))
  case copy x y | orReg x y | andReg x y | xorReg x y =>
    obtain ⟨b, rfl⟩ := heffect
    obtain rfl := eq_regF_of_reg_setReg_ne hne
    exact .inr (.inr (.inr (.inr (.inl ⟨y, by simp⟩))))
  case getDelay x =>
    obtain ⟨b, rfl⟩ := heffect
    obtain rfl := eq_regF_of_reg_setReg_ne hne
    simp
  case waitKey x =>
    obtain ⟨-, b, rfl⟩ | ⟨-, rfl⟩ := heffect
    · obtain rfl := eq_regF_of_reg_setReg_ne hne
      simp
    · exact absurd rfl hne
  case loadRegs x =>
    have hx : x = regF := by
      by_contra hx
      have hlt : x.val < regF.val := lt_of_le_of_ne (Nat.le_of_lt_succ x.isLt) fun e => hx (Fin.ext e)
      obtain ⟨v', rfl | ⟨k, -, -, rfl⟩, hkeep⟩ := heffect
      · exact hne (hkeep regF hlt)
      · exact hne (hkeep regF hlt)
    simp [hx]
  all_goals simp [instrWrites] at hw

end Sys2Proof.Machine
end

section
/-! Proofs: the statements about faults, PC, the report of a step and the invariant. -/

namespace Sys2Proof.Machine

/-! ### Faults (R200, R204) -/

/-- An instruction that halts while it touches bytes at I reports one that does not exist, with PC as it was. -/
theorem State.EndsAs.fault {s u t : State} {n : Nat} (h : s.EndsAs n u t) (hu : u.halt = none) (hpc : u.pc = s.pc)
    (ht : t.halt ≠ none) :
    t.pc = s.pc ∧ ∃ k < n, 4095 < s.dataAddr k ∧ t.halt = some (.dataBounds (s.dataAddr k)) := by
  rcases h with rfl | ⟨k, hk, hbad, rfl⟩
  · exact absurd hu ht
  · exact ⟨hpc, k, hk, hbad, rfl⟩

/-- A key instruction that halts reports the number, with PC as it was. -/
theorem State.TestsKey.fault {s t : State} {x : RegId} {f : Bool → Addr} (h : s.TestsKey x f t) (hs : s.halt = none)
    (ht : t.halt ≠ none) :
    t.pc = s.pc ∧ 15 < (s.reg x).toNat ∧ t.halt = some (.keyBounds (s.reg x).toNat) := by
  rcases h with ⟨k, -, rfl⟩ | ⟨hk, rfl⟩
  · exact absurd hs ht
  · exact ⟨rfl, hk, rfl⟩

/-- Settles O13: an instruction that halts is one that may write HALT, and its effect names the cause. -/
theorem onlyListedFaultsHalt : Obligations.OnlyListedFaultsHalt := by
  intro i s t hs h ht
  have heffect := effect_of_exec h
  have hw : .halt ∈ instrWrites i := by
    by_contra hno
    exact ht (((frame_of_exec h).halt hno).trans hs)
  cases i
  case ret =>
    obtain ⟨k, -, rfl⟩ | ⟨hsp, rfl⟩ := heffect
    · exact absurd hs ht
    · exact ⟨rfl, .inr (.inl ⟨rfl, hsp, rfl⟩)⟩
  case call nnn =>
    obtain ⟨hlt, rfl⟩ | ⟨hsp, rfl⟩ := heffect
    · exact absurd hs ht
    · exact ⟨rfl, .inl ⟨rfl, hsp, nnn, rfl⟩⟩
  case keyPressed x =>
    dsimp only [Effect] at heffect
    obtain ⟨hpc, hk, hhalt⟩ := heffect.fault hs ht
    exact ⟨hpc, .inr (.inr (.inl ⟨x, .inl rfl, hk, hhalt⟩))⟩
  case keyNotPressed x =>
    dsimp only [Effect] at heffect
    obtain ⟨hpc, hk, hhalt⟩ := heffect.fault hs ht
    exact ⟨hpc, .inr (.inr (.inl ⟨x, .inr rfl, hk, hhalt⟩))⟩
  case draw x y n =>
    obtain ⟨v', fb', hends⟩ := heffect
    obtain ⟨hpc, k, hk, hbad, hhalt⟩ := hends.fault hs rfl ht
    exact ⟨hpc, .inr (.inr (.inr ⟨k, hbad, hhalt, .inl ⟨x, y, n, rfl, hk⟩⟩))⟩
  case storeBcd x =>
    obtain ⟨m', hends, -⟩ := heffect
    obtain ⟨hpc, k, hk, hbad, hhalt⟩ := hends.fault hs rfl ht
    exact ⟨hpc, .inr (.inr (.inr ⟨k, hbad, hhalt, .inr (.inl ⟨x, rfl, hk⟩)⟩))⟩
  case storeRegs x =>
    obtain ⟨m', hends, -⟩ := heffect
    obtain ⟨hpc, k, hk, hbad, hhalt⟩ := hends.fault hs rfl ht
    exact ⟨hpc, .inr (.inr (.inr ⟨k, hbad, hhalt, .inr (.inr ⟨x, .inl rfl, Nat.le_of_lt_succ hk⟩)⟩))⟩
  case loadRegs x =>
    obtain ⟨v', hends, -⟩ := heffect
    obtain ⟨hpc, k, hk, hbad, hhalt⟩ := hends.fault hs rfl ht
    exact ⟨hpc, .inr (.inr (.inr ⟨k, hbad, hhalt, .inr (.inr ⟨x, .inr rfl, Nat.le_of_lt_succ hk⟩)⟩))⟩
  all_goals simp [instrWrites] at hw

/-! ### PC (R16) -/

/-- A key instruction that does not halt sets PC by the line that VX numbers. -/
theorem State.TestsKey.pc {s t : State} {x : RegId} {f : Bool → Addr} (h : s.TestsKey x f t) (ht : t.halt = none) :
    ∃ k : Fin 16, (s.reg x).toNat = k.val ∧ t.pc = f (s.key.get k) := by
  rcases h with ⟨k, hk, rfl⟩ | ⟨-, rfl⟩
  · exact ⟨k, hk, rfl⟩
  · cases ht

/-- Settles O28: the effect of an instruction that writes PC gives its new value, and the others keep it. -/
theorem pcAfterInstruction : Obligations.PcAfterInstruction := by
  intro i s t _ h ht
  have heffect := effect_of_exec h
  have hkeep := (frame_of_exec h).pc
  cases i
  case jump nnn =>
    obtain rfl := heffect
    exact addrLit_toNat nnn
  case call nnn =>
    obtain ⟨hlt, rfl⟩ | ⟨-, rfl⟩ := heffect
    · exact addrLit_toNat nnn
    · cases ht
  case ret =>
    obtain ⟨k, hk, rfl⟩ | ⟨-, rfl⟩ := heffect
    · exact ⟨k, hk, rfl⟩
    · cases ht
  case jumpOffset x nnn =>
    obtain rfl := heffect
    exact (byte_add_addrLit_toNat _ nnn).trans (by rw [State.reg_jumpReg])
  case skipEqImm | skipNeImm | skipEqReg | skipNeReg =>
    obtain rfl := heffect
    rfl
  case keyPressed x =>
    dsimp only [Effect] at heffect
    exact heffect.pc ht
  case keyNotPressed x =>
    dsimp only [Effect] at heffect
    exact heffect.pc ht
  case waitKey x =>
    obtain ⟨hdown, b, rfl⟩ | ⟨hup, rfl⟩ := heffect
    · exact (if_pos hdown).symm
    · have hnone : ¬ ∃ k : Fin 16, s.key.get k = true := fun ⟨k, hk⟩ => by simp [hup k] at hk
      exact (if_neg hnone).symm
  all_goals exact hkeep (by simp [instrWrites])

/-! ### The report of a step (R86) -/

theorem execReport_next_eq_fatal {t : State} {c : FatalCause} :
    execReport (.next t) = .fatal c ↔ t.halt = some c := by
  rw [execReport]
  cases t.halt <;> simp

theorem execReport_next_ok {t : State} (h : t.halt = none) : execReport (.next t) = .ok := by
  rw [execReport, h]

theorem execReport_next_ne_unknown (t : State) (w : Word) (p : Nat) : execReport (.next t) ≠ .unknown w p := by
  rw [execReport]
  cases t.halt <;> simp

/-- Settles O14: the report of each way a step can have a next state. -/
theorem reportMatchesNextState : Obligations.ReportMatchesNextState := by
  intro s t h
  obtain ⟨hs, ⟨hp, rfl⟩ | ⟨hp, hd, rfl⟩ | ⟨i, hp, hd, hexec⟩⟩ := step_cases h
  · rw [stepResult_of_fetchBounds hs hp]
    simp
  · rw [stepResult_of_unknown hs hp hd]
    refine ⟨fun c => ?fatal, fun w p he => ?unknown, fun _ => .inr rfl⟩
    case fatal => simp [hs]
    case unknown =>
      obtain ⟨-, rfl⟩ := StepResult.unknown.inj he
      exact ⟨rfl, rfl⟩
  · rw [stepResult_of_decode_ok hs hp hd, hexec]
    exact ⟨fun c => execReport_next_eq_fatal, fun w p he => absurd he (execReport_next_ne_unknown t w p),
      fun ht => .inl (execReport_next_ok ht)⟩

/-! ### The invariant (R15) -/

/-- A pair of bytes further, from a PC that can be fetched at, does not wrap. -/
theorem addr_add_two_toNat {a : Addr} (h : a.toNat + 1 ≤ 4097) : (a + 2).toNat = a.toNat + 2 := by
  rw [BitVec.toNat_add, show (2 : Addr).toNat = 2 from rfl]
  omega

/-- A choice between two addresses within the bound of PC is within it. -/
theorem pc_bound_of_eq_ite {c : Prop} [Decidable c] {p a b : Addr} (h : p = if c then a else b) (ha : a.toNat ≤ 4098)
    (hb : b.toNat ≤ 4098) : p.toNat ≤ 4350 := by
  rw [h]
  split <;> omega

/-- PC after an instruction that does not halt, run from an advanced PC. -/
theorem exec_pc_bound {i : Instr} {s t : State} (hs : s.halt = none) (h : exec i s = .next t) (ht : t.halt = none)
    (hlow : 2 ≤ s.pc.toNat) (hhigh : s.pc.toNat ≤ 4096) (hstack : ∀ k : Fin 16, (s.stack.get k).toNat ≤ 4096) :
    t.pc.toNat ≤ 4350 := by
  have hpc := pcAfterInstruction i s t hs h ht
  have hskip : (s.pc + 2).toNat ≤ 4098 := by
    rw [addr_add_two_toNat (by omega)]
    omega
  cases i
  case jump nnn | call nnn =>
    have hn := nnn.isLt
    have hpc : t.pc.toNat = nnn.toNat := hpc
    omega
  case ret =>
    obtain ⟨k, -, hpc⟩ := hpc
    have hk := hstack k
    rw [hpc]
    omega
  case jumpOffset x nnn =>
    have hn := nnn.isLt
    have hb := (if s.cfg.jump = true then s.reg x else s.reg 0).isLt
    have hpc : t.pc.toNat = (if s.cfg.jump = true then s.reg x else s.reg 0).toNat + nnn.toNat := hpc
    omega
  case skipEqImm | skipEqReg => exact pc_bound_of_eq_ite hpc hskip (by omega)
  case skipNeImm | skipNeReg => exact pc_bound_of_eq_ite hpc (by omega) hskip
  case keyPressed =>
    obtain ⟨k, -, hpc⟩ := hpc
    exact pc_bound_of_eq_ite hpc hskip (by omega)
  case keyNotPressed =>
    obtain ⟨k, -, hpc⟩ := hpc
    exact pc_bound_of_eq_ite hpc (by omega) hskip
  case waitKey =>
    have hback : (s.pc - 2).toNat ≤ 4098 := by
      rw [BitVec.toNat_sub_of_le hlow]
      omega
    exact pc_bound_of_eq_ite hpc (by omega) hback
  all_goals
    have hpc : t.pc = s.pc := hpc
    rw [hpc]
    omega

/-- An instruction puts no address on the stack but the PC it runs from. -/
theorem exec_stack_bound {i : Instr} {s t : State} (h : exec i s = .next t) (hpc : s.pc.toNat ≤ 4096)
    (hstack : ∀ k : Fin 16, (s.stack.get k).toNat ≤ 4096) (k : Fin 16) : (t.stack.get k).toNat ≤ 4096 := by
  by_cases hw : .stack ∈ instrWrites i
  · obtain ⟨nnn, rfl⟩ := writes_stack hw
    obtain ⟨hlt, rfl⟩ | ⟨-, rfl⟩ := effect_of_exec h
    · rw [stack_get_set]
      split
      · exact hpc
      · exact hstack k
    · exact hstack k
  · rw [(frame_of_exec h).stack hw]
    exact hstack k

/-- An instruction run from an advanced PC keeps the invariant, whether it completes or halts. -/
theorem exec_inv {i : Instr} {s t : State} (hs : s.halt = none) (h : exec i s = .next t) (hlow : 2 ≤ s.pc.toNat)
    (hhigh : s.pc.toNat ≤ 4096) (hmem : Memory.wf s.mem) (hstack : ∀ k : Fin 16, (s.stack.get k).toNat ≤ 4096) :
    t.Inv := by
  obtain ⟨hwf, -⟩ := mem_of_exec hmem h
  refine ⟨hwf, ?pc, exec_stack_bound h hhigh hstack⟩
  case pc =>
    by_cases ht : t.halt = none
    · exact exec_pc_bound hs h ht hlow hhigh hstack
    · obtain ⟨hpc, -⟩ := onlyListedFaultsHalt i s t hs h ht
      rw [hpc]
      omega

/-- Settles O16: a fetch fault changes HALT alone, an unknown word advances PC within the bound, and an instruction
keeps the invariant. -/
theorem invariantKeptByStep : Obligations.InvariantKeptByStep := by
  intro s t hinv h
  obtain ⟨hmem, hpc, hstack⟩ := hinv
  obtain ⟨hs, ⟨-, rfl⟩ | ⟨hp, -, rfl⟩ | ⟨i, hp, -, hexec⟩⟩ := step_cases h
  · exact ⟨hmem, hpc, hstack⟩
  · refine ⟨hmem, ?_, hstack⟩
    rw [State.setPc_pc, addr_add_two_toNat (by omega)]
    omega
  · have hadv : (s.setPc (s.pc + 2)).pc.toNat = s.pc.toNat + 2 := addr_add_two_toNat (by omega)
    exact exec_inv (s := s.setPc (s.pc + 2)) hs hexec (by omega) (by omega) hmem hstack

/-- Settles O17: reset memory lists no cell, PC is 0x200 and every stack entry is 0. -/
theorem invariantAtReset : Obligations.InvariantAtReset := ⟨Memory.wf_nil, by decide, by decide⟩

/-- The invariant holds of every constructed machine. -/
theorem construct_inv {program : List Byte} {shift jump : Bool} {table : GlyphTable} {s : State}
    (h : construct program shift jump table = .ok s) : s.Inv := by
  obtain ⟨hlen, rfl⟩ := construct_eq_ok.mp h
  exact ⟨Memory.load_wf table hlen, invariantAtReset.pcBound, invariantAtReset.stackBound⟩

/-- Every event keeps the invariant. -/
theorem deliver_inv {s : State} (e : Event) (h : s.Inv) : (deliver e s).Inv := by
  by_cases hs : s.halt = none
  · cases e with
    | step =>
      obtain ⟨-, hnext⟩ := everyInstructionHasNextState
      obtain ⟨t, ht⟩ := hnext s hs
      rw [deliver, ht]
      exact invariantKeptByStep s t h ht
    | tick =>
      rw [deliver, tick_running hs]
      exact ⟨h.memWf, h.pcBound, h.stackBound⟩
    | setKey k b =>
      rw [deliver, setKey_running k b hs]
      exact ⟨h.memWf, h.pcBound, h.stackBound⟩
  · obtain ⟨c, hc⟩ := Option.ne_none_iff_exists'.mp hs
    rwa [deliver_halted e hc]

theorem runTrace_inv {s : State} (es : List Event) (h : s.Inv) : (runTrace es s).Inv := by
  induction es generalizing s with
  | nil => exact h
  | cons e es ih => exact ih (deliver_inv e h)

/-- Settles O18: the invariant holds after construction, and every event keeps it. -/
theorem reachableStatesMeetInvariant : Obligations.ReachableStatesMeetInvariant :=
  fun _ _ _ _ _ es h => runTrace_inv es (construct_inv h)

end Sys2Proof.Machine
end

section
/-! Proofs: the statements about traces of events and about construction. -/

namespace Sys2Proof.Machine

/-! ### Traces -/

theorem runTrace_append (es es' : List Event) (s : State) : runTrace (es ++ es') s = runTrace es' (runTrace es s) := by
  induction es generalizing s with
  | nil => rfl
  | cons e es ih => exact ih (deliver e s)

/-- Settles O51: each tick takes 1 from each timer until it is zero, so by induction k ticks take k. -/
theorem timersAfterManyTicks : Obligations.TimersAfterManyTicks := by
  intro s k hs
  induction k generalizing s with
  | zero => exact ⟨s.dt, s.st, rfl, rfl, rfl⟩
  | succ k ih =>
    obtain ⟨d, t, hrun, hd, ht⟩ := ih { s with dt := countdown s.dt, st := countdown s.st } hs
    refine ⟨d, t, ?run, ?delay, ?sound⟩
    case run =>
      rw [List.replicate_succ, runTrace, deliver, tick_running hs, hrun]
    case delay =>
      rw [hd, countdown_toNat]
      omega
    case sound =>
      rw [ht, countdown_toNat]
      omega

/-- A step of a jump to its own address leaves the state as it is (R102). -/
theorem step_jump_to_self {s : State} (hs : s.halt = none) (hp : s.pc.toNat < 4095)
    (hw : s.wordAtPc.toNat = 0x1000 + s.pc.toNat) : step s = .next s := by
  have hop : s.wordAtPc.op = 1 := by
    rw [Word.op_eq, hw]
    omega
  have htarget : addrLit s.wordAtPc.nnn = s.pc := by
    apply BitVec.eq_of_toNat_eq
    rw [addrLit_toNat, Word.nnn_toNat, hw]
    omega
  rw [step_of_decode_ok hs (by omega) (decode_ok.mpr (decodeWord_jump hop)), exec_jump, htarget]
  rfl

theorem runTrace_steps_of_fixed {s : State} (h : step s = .next s) (n : Nat) :
    runTrace (List.replicate n .step) s = s := by
  induction n with
  | zero => rfl
  | succ n ih => rw [List.replicate_succ, runTrace, deliver, h, ih]

/-- Settles O53: every step of the frame leaves the state as it is, and its tick comes last. -/
theorem idleFrameOnlyTicks : Obligations.IdleFrameOnlyTicks := by
  intro s n hs hp hw
  rw [frameTrace, List.map_nil, List.nil_append, runTrace_append,
    runTrace_steps_of_fixed (step_jump_to_self hs hp hw)]
  rfl

/-! ### Construction -/

theorem GlyphTable.toList_getD (table : GlyphTable) (k : Fin 80) : table.toList.getD k.val 0 = table.get k := by
  rw [List.getD_eq_getElem _ _ (by simp), Vector.getElem_toList, Vector.get_eq_getElem]

/-- Memory right after construction, region by region (R230, R233). -/
theorem Memory.read_load_regions (table : GlyphTable) {program : List Byte} (h : program.length ≤ 3584) :
    (∀ k : Fin 80, Memory.read (Memory.load table program) (0x050 + k.val) = table.get k) ∧
    (∀ k, k < program.length → Memory.read (Memory.load table program) (0x200 + k) = program.getD k 0) ∧
    (∀ a, (a < 0x050 ∨ 0x0A0 ≤ a ∧ a < 0x200 ∨ 0x200 + program.length ≤ a) →
      Memory.read (Memory.load table program) a = 0) := by
  refine ⟨fun k => ?glyphs, fun k hk => ?program, fun a ha => ?zero⟩
  case glyphs =>
    have hk := k.isLt
    rw [Memory.read_load table h, if_neg (by omega), if_pos (by omega), Nat.add_sub_cancel_left,
      GlyphTable.toList_getD]
  case program => rw [Memory.read_load table h, if_pos (by omega), Nat.add_sub_cancel_left]
  case zero => rw [Memory.read_load table h, if_neg (by omega), if_neg (by omega)]

theorem defaultGlyphs_get (k : Fin 80) : defaultGlyphs.get k = glyphs.getD k.val 0 :=
  (GlyphTable.toList_getD defaultGlyphs k).symm

/-- Settles O59: a program that fits gives the reset state with its image loaded, item by item; a longer one none. -/
theorem constructMeetsResetTable : Obligations.ConstructMeetsResetTable := by
  intro program shift jump table
  refine ⟨fun h => construct_tooLong shift jump table h, fun h => ⟨_, construct_ok shift jump table h, ?_⟩⟩
  obtain ⟨hglyphs, hprogram, hzero⟩ := Memory.read_load_regions table h
  have hregs : ∀ r, State.reset.reg r = 0 := by decide
  have hstack : ∀ k : Fin 16, State.reset.stack.get k = 0 := by decide
  have hkey : ∀ k : Fin 16, State.reset.key.get k = false := by decide
  have hdefault : table = defaultGlyphs → ∀ k, k < 80 →
      Memory.read (Memory.load table program) (0x050 + k) = glyphs.getD k 0 := by
    intro htable k hk
    rw [hglyphs ⟨k, hk⟩, htable, defaultGlyphs_get]
  exact ⟨hregs, rfl, rfl, rfl, hstack, rfl, rfl, Display.get_get_clear, hkey, rfl, rfl, rfl, hglyphs, hdefault, hprogram,
    hzero⟩

/-- Settles O60: the default table lists no cell, so the empty construction is the reset state, whose word at 0x200 is
zero. -/
theorem resetIsEmptyConstruction : Obligations.ResetIsEmptyConstruction := by
  have hreset : construct [] false false = .ok State.reset := by
    rw [construct_ok false false defaultGlyphs (Nat.zero_le _), Memory.load_default]
    rfl
  refine ⟨hreset, fun s hs => ?_⟩
  obtain rfl := Except.ok.inj (hreset.symm.trans hs)
  exact stepResult_of_unknown rfl (by decide) (decode_error.mpr ⟨rfl, rfl⟩)

end Sys2Proof.Machine
end
